-- ==== Sys2Proof/Word.lean ====
section
/-! DEFINITION. The two widths of the core's data (spec/00_scope.md R8): the 8-bit byte of A, X, Y and memory,
and the 16-bit word of PC, SP and addresses. All values are unsigned (R10). -/

namespace Sys2Proof

/-- A data byte: A, X, Y, an opcode, an operand byte, a memory byte (R8). -/
abbrev Byte := BitVec 8

/-- A 16-bit word: PC, SP, an address, an operand word (R8). -/
abbrev Word := BitVec 16

end Sys2Proof
end

