-- ==== Sys2Proof/Config.lean ====
section
/-! DEFINITION. What an implementation fixes: the parameters of spec/00_scope.md R9 with every alternative the
spec names. The value THIS machine takes for each is `Sys2Proof.Machine.config` (Machine/Params.lean); the opcode
map, R9's fourth parameter, is a table in Decode.lean. The operations take the configuration as an argument, so
that every alternative has its meaning. -/

namespace Sys2Proof

/-- `RESET_PC_MODE` (R9, R211, R212, D1): what reset does with the vector. -/
inductive ResetPcMode where
  /-- PC <- the vector address itself (the default). -/
  | literal
  /-- PC <- the little-endian word read at the vector, after the zero fill. -/
  | deref
deriving DecidableEq, Repr

/-- `PAGE_CROSS_RULE` (R9, R101, D2): when an indexed access pays the extra cycle. -/
inductive PageCrossRule where
  /-- The high bytes of base and base + index differ (the default). -/
  | highByte
  /-- The corpus's own test, read as plain integers (N13). -/
  | refDiff
deriving DecidableEq, Repr

/-- `ZP_PTR_HI` (R9, R108, D3): where the high byte of a zero-page pointer stands. -/
inductive ZpPtrHi where
  /-- At (zp + 1) mod 2^16 (the default). -/
  | linear
  /-- At (zp + 1) mod 256. -/
  | zpWrap
deriving DecidableEq, Repr

/-- The width of `requested`, `cycles` and the result (R9, D6, U8). -/
inductive CycleCounter where
  /-- An unbounded signed integer (the default). -/
  | unbounded
  /-- A 32-bit signed integer. -/
  | signed32
deriving DecidableEq, Repr

/-- The parameters of R9, each with the default R9 gives it. -/
structure Config where
  resetPcMode : ResetPcMode := .literal
  pageCrossRule : PageCrossRule := .highByte
  zpPtrHi : ZpPtrHi := .linear
  cycleCounter : CycleCounter := .unbounded
deriving DecidableEq, Repr

/-- The default reset vector (R8, R210). -/
def Config.defaultVector : Word := 0xFFFC

end Sys2Proof
end

