-- ==== Sys2Proof/Machine/State.lean ====
section
/-! DEFINITION. The state of the machine, as plain data (spec/10_state.md R20 to R35; spec/20_memory.md R40 to R43;
spec/41_dispatch_loop.md R130 to R140), the reasons a step can stop, and the state after reset. -/

namespace Sys2Proof.Machine

/-- The seven independent status flags, true for 1 (R28). They are never packed into a byte (R28, R31, U1). -/
structure Flags where
  /-- Carry. -/
  c : Bool
  /-- Zero. -/
  z : Bool
  /-- Interrupt disable; it gates nothing (R30, R187). -/
  i : Bool
  /-- Decimal; it selects nothing (R30). -/
  d : Bool
  /-- Break. -/
  b : Bool
  /-- Overflow. -/
  v : Bool
  /-- Negative. -/
  n : Bool
deriving DecidableEq, Repr

/-- The record an unknown opcode leaves: the opcode byte and the address it was fetched from (R33, R180). -/
structure FaultRecord where
  op : Byte
  pc : Word
deriving DecidableEq, Repr

/-- What `execute` gives back to the host (R130). -/
inductive CallResult where
  /-- `Used(n)`: the cycles consumed (R135). -/
  | used (n : Int)
  /-- `Fault(op, pc)`: the unknown-opcode fault (R180, R185). -/
  | fault (op : Byte) (pc : Word)
deriving DecidableEq, Repr

/-- Where the core stands with the host's `execute` calls, between two instructions (R32, R140). -/
inductive Call where
  /-- IDLE, and no call has returned since reset: no cycle budget exists (R34). -/
  | idle
  /-- BOUNDARY, inside a call: its request and the budget left, which may be negative (R131, R132, R134). -/
  | running (requested cycles : Int)
  /-- IDLE after a call that gave the host this result. Keeping the result is the model's own (log entry 8). -/
  | returned (result : CallResult)
deriving DecidableEq, Repr

/-- The AddressSpace: the bytes that are not 0x00, by rising address (R40; `Memory.wf`). A byte not listed reads as
`Memory.unlisted`. -/
abbrev Memory := List Host.Cell

/-- What a byte that nothing has written reads as: reset and `initialize()` set every byte to 0x00 (R34, R43, R211). -/
def Memory.unlisted : Byte := 0x00

/-- The canonical form: addresses strictly rising, each inside the 2^16-byte space (R40), and no cell that holds what
an unlisted address reads as. Equal memories are then equal lists. -/
abbrev Memory.wf (m : Memory) : Prop :=
  m.Pairwise (fun p q => p.1 < q.1) ∧ ∀ p ∈ m, p.1 < 2 ^ 16 ∧ p.2 ≠ Memory.unlisted

/-- Everything the spec gives the machine. -/
structure State where
  /-- Program counter (R24). -/
  pc : Word
  /-- Stack pointer, 16 bits, biased to page 1 (R26). -/
  sp : Word
  /-- Accumulator (R21). -/
  a : Byte
  /-- Index register X (R22). -/
  x : Byte
  /-- Index register Y (R23). -/
  y : Byte
  /-- The seven flags (R28). -/
  flags : Flags
  /-- The fault record (R33). -/
  fault : Option FaultRecord
  /-- The `execute` call in progress with its cycle budget, or the last call's result (R32, R140). -/
  call : Call
  /-- The AddressSpace the caller hands to every operation (R40, R42). -/
  mem : Memory
deriving DecidableEq, Repr

/-- Why the machine stops. -/
inductive Fault where
  /-- The core is in the FAULTED state: an opcode outside the map was fetched at `pc`, the record says so, and no
  step leaves this state (R180, R183, R185). Raised by the step of a faulted core; safe. -/
  | unknownOpcode (op : Byte) (pc : Word)
deriving DecidableEq, Repr

/-- Why the model gives no meaning. -/
inductive Refusal where
  /-- An instruction without a meaning yet; no arm of this model raises it. Safe. -/
  | notModelled (mnemonic : String)
  /-- A host operation attempted while an `execute` call runs, which the spec forbids (R64, R216). Raised by `host`,
  never by a step; safe. -/
  | callInProgress
  /-- A request a 32-bit counter build could overflow on (U8). Raised by the host's `execute` under
  `CycleCounter.signed32` only, never by a step; safe. -/
  | requestTooWide (requested : Int)
deriving DecidableEq, Repr

/-- All seven flags 0. -/
def Flags.clear : Flags := ⟨false, false, false, false, false, false, false⟩

/-- The machine right after `reset(0xFFFC)` with the default configuration (R34, R210, R211). -/
def State.reset : State where
  pc := Config.defaultVector
  sp := 0x0000
  a := 0x00
  x := 0x00
  y := 0x00
  flags := Flags.clear
  fault := none
  call := .idle
  mem := []

end Sys2Proof.Machine
end

