-- ==== Sys2Proof/Machine/Flags.lean ====
section
/-! DEFINITION. The flag computation (spec/10_state.md R38), the only one in scope (R39). -/

namespace Sys2Proof.Machine

/-- `SetZN(v)` on the flags: Z is 1 iff v is 0x00, N is bit 7 of v, the other five flags are kept (R38). -/
def Flags.setZN (f : Flags) (v : Byte) : Flags := { f with z := v == 0x00, n := v.getLsbD 7 }

/-- `SetZN(v)` (R38). -/
def State.setZN (s : State) (v : Byte) : State := { s with flags := s.flags.setZN v }

end Sys2Proof.Machine
end

