-- ==== Sys2Proof/Syntax.lean ====
section
/-! DEFINITION. The instructions: one constructor for each of the nine rows of spec/opcode_table.json
(spec/30_encoding.md R73), and the names the opcode map uses: formats, addressing modes, operations. -/

namespace Sys2Proof

/-- The two instruction formats (R71). -/
inductive Format where
  /-- Opcode and one operand byte: length 2. -/
  | op8
  /-- Opcode and one operand word, low byte first: length 3. -/
  | op16
deriving DecidableEq, Repr

/-- The addressing-mode tags of the mode table (R73, R102 to R109). -/
inductive AddrMode where
  | immediate
  | zeroPage
  | zeroPageX
  | absolute
  | absoluteX
  | absoluteY
  /-- (Indirect,X), indexed indirect. -/
  | indirectX
  /-- (Indirect),Y, indirect indexed. -/
  | indirectY
deriving DecidableEq, Repr

/-- What an opcode selects: an operation with its addressing mode (R74). JSR's only mode is Absolute. -/
inductive Operation where
  | lda (mode : AddrMode)
  | jsr
deriving DecidableEq, Repr

/-- An instruction with its operand: the byte `b8` of format OP8 or the word `w16` of format OP16 (R71, R72). -/
inductive Instr where
  /-- `LDA #$nn`, 0xA9 (R151). -/
  | ldaImm (value : Byte)
  /-- `LDA $nn`, 0xA5 (R152). -/
  | ldaZp (zp : Byte)
  /-- `LDA $nn,X`, 0xB5 (R153). -/
  | ldaZpX (zp : Byte)
  /-- `LDA $nnnn`, 0xAD (R154). -/
  | ldaAbs (addr : Word)
  /-- `LDA $nnnn,X`, 0xBD (R155). -/
  | ldaAbsX (base : Word)
  /-- `LDA $nnnn,Y`, 0xB9 (R156). -/
  | ldaAbsY (base : Word)
  /-- `LDA ($nn,X)`, 0xA1 (R157). -/
  | ldaIndX (zp : Byte)
  /-- `LDA ($nn),Y`, 0xB1 (R158). -/
  | ldaIndY (zp : Byte)
  /-- `JSR $nnnn`, 0x20 (R170). -/
  | jsr (target : Word)
deriving DecidableEq, Repr

/-- The operation and addressing mode an instruction stands for (R73). -/
def Instr.operation : Instr → Operation
  | .ldaImm _ => .lda .immediate
  | .ldaZp _ => .lda .zeroPage
  | .ldaZpX _ => .lda .zeroPageX
  | .ldaAbs _ => .lda .absolute
  | .ldaAbsX _ => .lda .absoluteX
  | .ldaAbsY _ => .lda .absoluteY
  | .ldaIndX _ => .lda .indirectX
  | .ldaIndY _ => .lda .indirectY
  | .jsr _ => .jsr

/-- The instruction's format (R71, R73). -/
def Instr.format : Instr → Format
  | .ldaImm _ => .op8
  | .ldaZp _ => .op8
  | .ldaZpX _ => .op8
  | .ldaAbs _ => .op16
  | .ldaAbsX _ => .op16
  | .ldaAbsY _ => .op16
  | .ldaIndX _ => .op8
  | .ldaIndY _ => .op8
  | .jsr _ => .op16

/-- The length in bytes a format gives (R71, R78). -/
def Format.length : Format → Nat
  | .op8 => 2
  | .op16 => 3

/-- The instruction belongs to the load-accumulator family (R150). -/
def Instr.isLda : Instr → Bool
  | .ldaImm _ => true
  | .ldaZp _ => true
  | .ldaZpX _ => true
  | .ldaAbs _ => true
  | .ldaAbsX _ => true
  | .ldaAbsY _ => true
  | .ldaIndX _ => true
  | .ldaIndY _ => true
  | .jsr _ => false

end Sys2Proof
end

