-- ==== Sys2Proof/WellFormed.lean ====
section
/-! DEFINITION. Which instructions are well formed. Every byte value is a legal operand byte, so an operand never
makes an instruction illegal (spec/30_encoding.md R77), every 16-bit address and target is legal
(spec/20_memory.md R41, R53; spec/43_control_jsr.md R174), and the operand types admit exactly those bytes and
words: there is NO check to make on an `Instr`, and none is invented. What can be ill formed is a string of bytes;
that check is `wellFormedBytes` in Decode.lean, beside the opcode map it reads. -/

namespace Sys2Proof

/-- Every instruction is well formed (R77), said constructor by constructor. -/
def Instr.wellFormed : Instr → Bool
  | .ldaImm _ => true
  | .ldaZp _ => true
  | .ldaZpX _ => true
  | .ldaAbs _ => true
  | .ldaAbsX _ => true
  | .ldaAbsY _ => true
  | .ldaIndX _ => true
  | .ldaIndY _ => true
  | .jsr _ => true

end Sys2Proof
end

