-- ==== Sys2Proof/Decode.lean ====
section
/-! DEFINITION. The opcode map (spec/30_encoding.md R73), the decoder that looks an opcode byte up in it (R74) and
assembles the operand (R72), the encoder (R71, R73), the instruction lengths (R78), the decoder's reading of
spec/opcode_table.json's numbering, and the assembler notation of R79. Byte order is little-endian (R51). -/

namespace Sys2Proof

/-- `hi ++ lo`: the word whose low byte is at the lower address (R10, R51). -/
def joinLE (lo hi : Byte) : Word := hi ++ lo

/-- `w[7:0]` (R10). -/
def loByte (w : Word) : Byte := w.extractLsb' 0 8

/-- `w[15:8]` (R10). -/
def hiByte (w : Word) : Byte := w.extractLsb' 8 8

/-- One entry of the opcode map (R73). -/
structure OpcodeRow where
  opcode : Byte
  operation : Operation
  format : Format
deriving DecidableEq, Repr

/-- `OPCODE_MAP` (R73, R9, D5). 0xA9 is the source's; the other eight values are PRESUMED: the spec supplies them
from general knowledge of the 6502 (K2; log entry 4). -/
def opcodeMap : List OpcodeRow :=
  [ ⟨0xA9, .lda .immediate, .op8⟩,
    ⟨0xA5, .lda .zeroPage, .op8⟩,
    ⟨0xB5, .lda .zeroPageX, .op8⟩,
    ⟨0xAD, .lda .absolute, .op16⟩,
    ⟨0xBD, .lda .absoluteX, .op16⟩,
    ⟨0xB9, .lda .absoluteY, .op16⟩,
    ⟨0xA1, .lda .indirectX, .op8⟩,
    ⟨0xB1, .lda .indirectY, .op8⟩,
    ⟨0x20, .jsr, .op16⟩ ]

/-- The map's entry for an opcode byte; `none` is the spec's `Unknown` (R74). -/
def lookup (op : Byte) : Option OpcodeRow := opcodeMap.find? (fun row => row.opcode == op)

/-- What the decoder answers: an instruction with the bytes after it, or a rejection by name. -/
inductive Decoded where
  | instr (i : Instr) (rest : List Byte)
  /-- The opcode is not in the map (R74, R76); nothing but the opcode is consumed (R78). -/
  | unknownOpcode (op : Byte)
  /-- The bytes end before the instruction does; no fetch of the machine meets this, since memory never ends. -/
  | truncated
deriving DecidableEq, Repr

/-- Read the one operand byte of format OP8 (R71, R72). -/
def withByte (k : Byte → Instr) : List Byte → Decoded
  | b :: rest => .instr (k b) rest
  | [] => .truncated

/-- Read the operand word of format OP16, low byte first (R71, R72). -/
def withWord (k : Word → Instr) : List Byte → Decoded
  | lo :: hi :: rest => .instr (k (joinLE lo hi)) rest
  | [_] => .truncated
  | [] => .truncated

/-- Assemble the operand of a looked-up operation (R72). -/
def decodeOperand : Operation → List Byte → Decoded
  | .lda .immediate => withByte .ldaImm
  | .lda .zeroPage => withByte .ldaZp
  | .lda .zeroPageX => withByte .ldaZpX
  | .lda .absolute => withWord .ldaAbs
  | .lda .absoluteX => withWord .ldaAbsX
  | .lda .absoluteY => withWord .ldaAbsY
  | .lda .indirectX => withByte .ldaIndX
  | .lda .indirectY => withByte .ldaIndY
  | .jsr => withWord .jsr

/-- The decoder: a total lookup of the opcode byte, then its operand (R72, R74). -/
def decode : List Byte → Decoded
  | [] => .truncated
  | op :: rest =>
    match lookup op with
    | none => .unknownOpcode op
    | some row => decodeOperand row.operation rest

/-- The length of the instruction an opcode begins, a function of the opcode alone (R78). -/
def lengthOf (op : Byte) : Option Nat := (lookup op).map (fun row => row.format.length)

/-- The check on a string of bytes: it is exactly one instruction, an opcode of the map followed by as many operand
bytes as its format has (R70, R71, R77). -/
def wellFormedBytes : List Byte → Bool
  | [] => false
  | op :: rest => lengthOf op == some (rest.length + 1)

/-- The opcode byte of an instruction, written out row by row from R73's table (not by searching `opcodeMap`). -/
def Instr.opcode : Instr → Byte
  | .ldaImm _ => 0xA9
  | .ldaZp _ => 0xA5
  | .ldaZpX _ => 0xB5
  | .ldaAbs _ => 0xAD
  | .ldaAbsX _ => 0xBD
  | .ldaAbsY _ => 0xB9
  | .ldaIndX _ => 0xA1
  | .ldaIndY _ => 0xB1
  | .jsr _ => 0x20

/-- The two bytes of an operand word, low byte first (R51, R71). -/
def wordBytes (w : Word) : List Byte := [loByte w, hiByte w]

/-- The operand bytes of an instruction (R71). -/
def Instr.operandBytes : Instr → List Byte
  | .ldaImm b => [b]
  | .ldaZp b => [b]
  | .ldaZpX b => [b]
  | .ldaAbs w => wordBytes w
  | .ldaAbsX w => wordBytes w
  | .ldaAbsY w => wordBytes w
  | .ldaIndX b => [b]
  | .ldaIndY b => [b]
  | .jsr w => wordBytes w

/-- The encoder: the bytes of an instruction, in the order they stand in memory (R70, R71). -/
def encode (i : Instr) : List Byte := i.opcode :: i.operandBytes

/-- The bytes of an instruction numbered as spec/opcode_table.json numbers it: byte k is bits 8k+7..8k of `w`, every
bit from `nbits` up is 0, and there are as many bytes as the longest instruction has (R71). -/
def tableBytes (nbits w : Nat) : List Byte :=
  [BitVec.ofNat 8 (w % 2 ^ nbits), BitVec.ofNat 8 (w % 2 ^ nbits / 2 ^ 8), BitVec.ofNat 8 (w % 2 ^ nbits / 2 ^ 16)]

/-- The instruction the decoder reads from a word of spec/opcode_table.json. -/
def decodeTableWord (nbits w : Nat) : Option Instr :=
  match decode (tableBytes nbits w) with
  | .instr i _ => some i
  | .unknownOpcode _ => none
  | .truncated => none

/-! ### Assembler notation

PRESUMED: the conventional 6502 notation, which the spec takes from general knowledge (R79, D14; log entry 17). No
rule depends on it. -/

/-- One hexadecimal digit, upper case. -/
def hexDigit (n : Nat) : Char := if n < 10 then Char.ofNat (48 + n) else Char.ofNat (55 + n)

/-- A byte as two hexadecimal digits. -/
def hexByte (b : Byte) : String := String.ofList [hexDigit (b.toNat / 16), hexDigit (b.toNat % 16)]

/-- A word as four hexadecimal digits, high byte first. -/
def hexWord (w : Word) : String := hexByte (hiByte w) ++ hexByte (loByte w)

/-- The nine assembler forms of R79. -/
def Instr.assembly : Instr → String
  | .ldaImm b => "LDA #$" ++ hexByte b
  | .ldaZp b => "LDA $" ++ hexByte b
  | .ldaZpX b => "LDA $" ++ hexByte b ++ ",X"
  | .ldaAbs w => "LDA $" ++ hexWord w
  | .ldaAbsX w => "LDA $" ++ hexWord w ++ ",X"
  | .ldaAbsY w => "LDA $" ++ hexWord w ++ ",Y"
  | .ldaIndX b => "LDA ($" ++ hexByte b ++ ",X)"
  | .ldaIndY b => "LDA ($" ++ hexByte b ++ "),Y"
  | .jsr w => "JSR $" ++ hexWord w

end Sys2Proof
end

