-- ==== Sys2Proof/Machine/Alu.lean ====
section
/-! DEFINITION. The datapath's adders (spec/10_state.md R36, R37). Every carry out is discarded and sets no flag. -/

namespace Sys2Proof.Machine

/-- `zext_16(b)` (R11). -/
def zext16 (b : Byte) : Word := b.setWidth 16

/-- `Add8(a, b) = (a + b) mod 256` (R36). -/
def add8 (a b : Byte) : Byte := a + b

/-- `Add16(a, b) = (a + zext_16(b)) mod 2^16` (R37). -/
def add16 (a : Word) (b : Byte) : Word := a + zext16 b

/-- `Inc16(a) = (a + 1) mod 2^16` (R37). -/
def inc16 (a : Word) : Word := a + 1

/-- `Dec16(a) = (a - 1) mod 2^16` (R37). -/
def dec16 (a : Word) : Word := a - 1

/-- `StackAddr(SP) = 0x0100 + zext_16(SP[7:0])` (R26). -/
def stackAddr (sp : Word) : Word := 0x0100 + zext16 (sp.extractLsb' 0 8)

end Sys2Proof.Machine
end

