-- ==== Sys2Proof/Machine/Ops.lean ====
section
/-! DEFINITION. The named operations over memory and state: MemRead and MemWrite (spec/20_memory.md R43), the access
primitives of the memory access controller with the cycles they charge (R44 to R48), taking the unknown-opcode fault
(spec/60_exceptions.md R180 to R182) and, beside it, the one way back from it: reset (spec/70_reset_and_hazards.md R211). -/

namespace Sys2Proof.Machine

/-! ### The AddressSpace -/

/-- The byte a list of cells holds at an address. -/
def Memory.find : Memory → Nat → Byte
  | [], _ => Memory.unlisted
  | (k, v) :: rest, a => if k = a then v else Memory.find rest a

/-- Put a cell before the first one with a higher address. -/
def Memory.insert : Memory → Nat → Byte → Memory
  | [], a, v => [(a, v)]
  | (k, w) :: rest, a, v => if a < k then (a, v) :: (k, w) :: rest else (k, w) :: Memory.insert rest a v

/-- Set the byte at an address: drop what is listed there, then list the new byte unless it is what an unlisted
address reads as, so that the canonical form is kept. -/
def Memory.set (m : Memory) (a : Nat) (v : Byte) : Memory :=
  if v = Memory.unlisted then m.filter (fun p => p.1 != a)
  else Memory.insert (m.filter (fun p => p.1 != a)) a v

/-- `MemRead(addr, 1)`, uncharged (R43). -/
def Memory.read (m : Memory) (addr : Word) : Byte := Memory.find m addr.toNat

/-- `MemWrite(addr, 1, v)`, uncharged (R43). -/
def Memory.write (m : Memory) (addr : Word) (v : Byte) : Memory := Memory.set m addr.toNat v

/-- Write consecutive bytes from an address on; addresses wrap at 0xFFFF (R41). -/
def Memory.writeAll : Memory → Word → List Byte → Memory
  | m, _, [] => m
  | m, a, b :: bs => Memory.writeAll (m.write a b) (inc16 a) bs

/-- `initialize()`: every byte 0x00 (R43). -/
def Memory.initialize : Memory := []

/-! ### The cycle budget -/

/-- What `n` cycles do to a call: they come off the budget of the call that runs (R11, R132). Outside a call there is
no budget to charge (R32; log entry 11). -/
def Call.charge (n : Nat) : Call → Call
  | .idle => .idle
  | .running requested cycles => .running requested (cycles - n)
  | .returned r => .returned r

/-- A call at a boundary with budget left: the one that runs, or else the host's `execute(1)` just begun (R196). -/
def Call.withBudget : Call → Call
  | .running requested cycles => if 0 < cycles then .running requested cycles else .running 1 1
  | .idle => .running 1 1
  | .returned _ => .running 1 1

/-- `Tick(n)` (R11). -/
def State.tick (s : State) (n : Nat) : State := { s with call := s.call.charge n }

/-! ### The access primitives -/

/-- `Fetch8()` (R44). -/
def State.fetch8 (s : State) : Byte × State :=
  (s.mem.read s.pc, State.tick { s with pc := inc16 s.pc } 1)

/-- `Fetch16()`, low byte first (R45). -/
def State.fetch16 (s : State) : Word × State :=
  let (lo, s₁) := s.fetch8
  let (hi, s₂) := s₁.fetch8
  (joinLE lo hi, s₂)

/-- `Read8(a)` (R46). -/
def State.read8 (s : State) (a : Word) : Byte × State := (s.mem.read a, s.tick 1)

/-- `Read16(a)`, low byte first; the second address wraps mod 2^16 (R47). -/
def State.read16 (s : State) (a : Word) : Word × State :=
  let (lo, s₁) := s.read8 a
  let (hi, s₂) := s₁.read8 (inc16 a)
  (joinLE lo hi, s₂)

/-- `Write16(a, v)`, low byte first; the second address wraps mod 2^16 (R48). -/
def State.write16 (s : State) (a v : Word) : State :=
  State.tick { s with mem := (s.mem.write a (loByte v)).write (inc16 a) (hiByte v) } 2

/-! ### The fault and the way back from it -/

/-- Taking the unknown-opcode fault, in the state after the opcode's `Fetch8`: the record is written, the call ends
with `Fault(op, pc)`, and nothing else changes: no control transfer, push, flag or mode (R180 to R182, R189). -/
def State.raiseUnknownOpcode (s : State) (op : Byte) (pc0 : Word) : State :=
  { s with fault := some ⟨op, pc0⟩, call := .returned (.fault op pc0) }

/-- `reset(vector)` (R211): the only way out of the faulted state (R190, R214). It reads nothing of the old state but
what it has itself zeroed (R212). -/
def State.resetTo (cfg : Config) (s : State) (vector : Word) : State :=
  let zeroed : State :=
    { s with sp := 0x0000, a := 0x00, x := 0x00, y := 0x00, flags := Flags.clear, fault := none, call := .idle,
             mem := Memory.initialize }
  match cfg.resetPcMode with
  | .literal => { zeroed with pc := vector }
  | .deref => { zeroed with pc := joinLE (zeroed.mem.read vector) (zeroed.mem.read (inc16 vector)) }

end Sys2Proof.Machine
end

