-- ==== Sys2Proof/Machine/Operands.lean ====
section
/-! DEFINITION. The addressing-mode resolver (spec/40_addressing_modes.md R100 to R111). A resolver starts with PC at
the first operand byte; the operand itself was read by the decoder, and the resolver makes the fetches that pass over
it (PC and cycles), so `resolveZp b` is `ResolveZP` with the fetched byte equal to `b`. It writes no register but PC,
no flag and no memory (R100). -/

namespace Sys2Proof.Machine

/-- `PageCross(base, idx)` under either rule (R101). -/
def pageCross (rule : PageCrossRule) (base : Word) (idx : Byte) : Bool :=
  match rule with
  | .highByte => hiByte base != hiByte (add16 base idx)
  | .refDiff => 0xFF ≤ idx.toNat

/-- `if PageCross(base, idx) then Tick(1)` (R106, R107, R109). -/
def State.tickPageCross (cfg : Config) (base : Word) (idx : Byte) (s : State) : State :=
  if pageCross cfg.pageCrossRule base idx then s.tick 1 else s

/-- `ReadPtr(zp)`: a pointer word from the zero page (R108). -/
def State.readPtr (cfg : Config) (zp : Byte) (s : State) : Word × State :=
  match cfg.zpPtrHi with
  | .linear => s.read16 (zext16 zp)
  | .zpWrap =>
    let (lo, s₁) := s.read8 (zext16 zp)
    let (hi, s₂) := s₁.read8 (zext16 (add8 zp 1))
    (joinLE lo hi, s₂)

/-- Immediate: the fetched byte is the value (R102). -/
def resolveImm (b : Byte) (s : State) : Byte × State := (b, s.fetch8.2)

/-- Zero Page: the fetched byte is the address (R103). -/
def resolveZp (b : Byte) (s : State) : Word × State := (zext16 b, s.fetch8.2)

/-- Zero Page,X: wraps within the zero page, one extra cycle always (R104). -/
def resolveZpX (b : Byte) (s : State) : Word × State :=
  let s₁ := s.fetch8.2.tick 1
  (zext16 (add8 b s₁.x), s₁)

/-- Absolute: the fetched word is the address (R105). -/
def resolveAbs (w : Word) (s : State) : Word × State := (w, s.fetch16.2)

/-- Absolute,X: one extra cycle on a page cross (R106). -/
def resolveAbsX (cfg : Config) (base : Word) (s : State) : Word × State :=
  let s₁ := s.fetch16.2
  (add16 base s₁.x, s₁.tickPageCross cfg base s₁.x)

/-- Absolute,Y: R106 with Y (R107). -/
def resolveAbsY (cfg : Config) (base : Word) (s : State) : Word × State :=
  let s₁ := s.fetch16.2
  (add16 base s₁.y, s₁.tickPageCross cfg base s₁.y)

/-- (Indirect,X): one extra cycle always, the pointer at (b + X) mod 256 (R108). -/
def resolveIndX (cfg : Config) (b : Byte) (s : State) : Word × State :=
  let s₁ := s.fetch8.2.tick 1
  s₁.readPtr cfg (add8 b s₁.x)

/-- (Indirect),Y: the pointer at b, then Y added, one extra cycle on a page cross (R109). -/
def resolveIndY (cfg : Config) (b : Byte) (s : State) : Word × State :=
  let (ptr, s₁) := s.fetch8.2.readPtr cfg b
  (add16 ptr s₁.y, s₁.tickPageCross cfg ptr s₁.y)

end Sys2Proof.Machine
end

