-- ==== Sys2Proof/Machine/Params.lean ====
section
/-! DEFINITION. The configuration this machine is built with. -/

namespace Sys2Proof.Machine

/-- Every parameter of R9 at the default the spec gives it: `Literal`, `HighByte`, `Linear`, an unbounded counter
(log entries 1, 2, 3 and 5). DESIGN CHOICE of the spec (D1, D2, D3, D6). -/
def config : Config where
  resetPcMode := .literal
  pageCrossRule := .highByte
  zpPtrHi := .linear
  cycleCounter := .unbounded

end Sys2Proof.Machine
end

