-- ==== Sys2Proof/Machine/Load.lean ====
section
/-! DEFINITION. The load-accumulator family (spec/42_load_lda.md R150 to R159). A meaning runs its instruction whole,
from the instruction boundary: PC at the opcode, whose fetch it charges (spec/41_dispatch_loop.md R133), then the
mode's resolver, then the load. No LDA raises an exception (R150). Where the mode depends on a parameter of
spec/00_scope.md R9, the load stands first for any configuration, and the meaning is that load under `config`. -/

namespace Sys2Proof.Machine

/-- The end of `ExecLDA`: `A <- v; SetZN(v)` (R150). -/
def State.loadA (v : Byte) (s : State) : State := State.setZN { s with a := v } v

/-- `ExecLDA` on a resolved immediate value (R150). -/
def loadValue (r : Byte × State) : State := r.2.loadA r.1

/-- `ExecLDA` on a resolved address: `v <- Read8(ea)`, then the load (R150). -/
def loadFrom (r : Word × State) : State := loadValue (r.2.read8 r.1)

/-- The opcode's own `Fetch8`, its byte already decoded (R133). -/
def State.opcodeFetched (s : State) : State := s.fetch8.2

/-- `LDA #$nn` (R151). -/
def execLdaImm (b : Byte) (s : State) : Host.Outcome State Fault Refusal :=
  .next (loadValue (resolveImm b s.opcodeFetched))

/-- `LDA $nn` (R152). -/
def execLdaZp (b : Byte) (s : State) : Host.Outcome State Fault Refusal :=
  .next (loadFrom (resolveZp b s.opcodeFetched))

/-- `LDA $nn,X` (R153). -/
def execLdaZpX (b : Byte) (s : State) : Host.Outcome State Fault Refusal :=
  .next (loadFrom (resolveZpX b s.opcodeFetched))

/-- `LDA $hhll` (R154). -/
def execLdaAbs (w : Word) (s : State) : Host.Outcome State Fault Refusal :=
  .next (loadFrom (resolveAbs w s.opcodeFetched))

/-- `LDA $hhll,X` in a machine of any configuration (R155). -/
def loadAbsX (cfg : Config) (w : Word) (s : State) : State := loadFrom (resolveAbsX cfg w s.opcodeFetched)

/-- `LDA $hhll,X` (R155). -/
def execLdaAbsX (w : Word) (s : State) : Host.Outcome State Fault Refusal := .next (loadAbsX config w s)

/-- `LDA $hhll,Y` in a machine of any configuration (R156). -/
def loadAbsY (cfg : Config) (w : Word) (s : State) : State := loadFrom (resolveAbsY cfg w s.opcodeFetched)

/-- `LDA $hhll,Y` (R156). -/
def execLdaAbsY (w : Word) (s : State) : Host.Outcome State Fault Refusal := .next (loadAbsY config w s)

/-- `LDA ($nn,X)` in a machine of any configuration (R157). -/
def loadIndX (cfg : Config) (b : Byte) (s : State) : State := loadFrom (resolveIndX cfg b s.opcodeFetched)

/-- `LDA ($nn,X)` (R157). -/
def execLdaIndX (b : Byte) (s : State) : Host.Outcome State Fault Refusal := .next (loadIndX config b s)

/-- `LDA ($nn),Y` in a machine of any configuration (R158). -/
def loadIndY (cfg : Config) (b : Byte) (s : State) : State := loadFrom (resolveIndY cfg b s.opcodeFetched)

/-- `LDA ($nn),Y` (R158). -/
def execLdaIndY (b : Byte) (s : State) : Host.Outcome State Fault Refusal := .next (loadIndY config b s)

end Sys2Proof.Machine
end

