-- ==== Sys2Proof/Machine/Control.lean ====
section
/-! DEFINITION. The one control transfer, JSR (spec/43_control_jsr.md R170 to R174). -/

namespace Sys2Proof.Machine

/-- `ExecJSR()` after its `target <- Fetch16()`: push the address of the JSR's last byte, SP <- SP + 2, the extra
cycle, PC <- target (R170). -/
def State.call16 (target : Word) (s : State) : State :=
  let s₁ := s.write16 (stackAddr s.sp) (dec16 s.pc)
  let s₂ := State.tick { s₁ with sp := s₁.sp + 2 } 1
  { s₂ with pc := target }

/-- `JSR $hhll` (R170). -/
def execJsr (target : Word) (s : State) : Host.Outcome State Fault Refusal :=
  .next (s.opcodeFetched.fetch16.2.call16 target)

end Sys2Proof.Machine
end

