-- ==== Sys2Proof/Machine/Configured.lean ====
section
/-! DEFINITION. Running an instruction in a machine of any configuration of spec/00_scope.md R9. The fixed interface
`exec` is this under `config` (Laws/Configured.lean); the host's `execute`, which takes its configuration, runs this one
(spec/41_dispatch_loop.md R138). -/

namespace Sys2Proof.Machine

/-- `exec` under `cfg`. Only the four modes with a page-cross penalty or a zero-page pointer read a parameter (D2, D3). -/
def execIn (cfg : Config) (i : Instr) (s : State) : Host.Outcome State Fault Refusal :=
  match i with
  | .ldaImm b => execLdaImm b s
  | .ldaZp b => execLdaZp b s
  | .ldaZpX b => execLdaZpX b s
  | .ldaAbs w => execLdaAbs w s
  | .ldaAbsX w => .next (loadAbsX cfg w s)
  | .ldaAbsY w => .next (loadAbsY cfg w s)
  | .ldaIndX b => .next (loadIndX cfg b s)
  | .ldaIndY b => .next (loadIndY cfg b s)
  | .jsr w => execJsr w s

end Sys2Proof.Machine
end

