-- ==== Sys2Proof/Machine/Loop.lean ====
section
/-! DEFINITION. The cycle-state machine (spec/41_dispatch_loop.md R131 to R140), one step of it at a time: what a core
does at an instruction boundary, when it is idle and when it has faulted. Both take `run`, what runs one instruction:
`exec`, or `execIn cfg` in a machine of another configuration (spec/00_scope.md R9). -/

namespace Sys2Proof.Machine

/-- The bytes at PC that an instruction could have, in fetch order; the address wraps at 0xFFFF (R25, R45). Reading
them has no side effect (R56), so reading past a short instruction changes nothing (log entry 12). -/
def State.window (s : State) : List Byte :=
  [s.mem.read s.pc, s.mem.read (inc16 s.pc), s.mem.read (inc16 (inc16 s.pc))]

/-- The instruction at PC, `none` where its opcode is not in the map (R74). -/
def State.fetchInstr (s : State) : Option Instr :=
  match decode s.window with
  | .instr i _ => some i
  | .unknownOpcode _ => none
  | .truncated => none

/-- One pass of the loop body: fetch, decode, and either run the instruction to its end or take the unknown-opcode
fault after the opcode's own fetch (R131, R133, R181). -/
def State.runInstruction (run : Instr → State → Host.Outcome State Fault Refusal) (s : State) :
    Host.Outcome State Fault Refusal :=
  match s.fetchInstr with
  | some i => run i s
  | none =>
    let (op, s₁) := s.fetch8
    .next (s₁.raiseUnknownOpcode op s.pc)

/-- One transition of the cycle-state machine of R140 between instructions.
FAULTED: the step stops with the recorded fault, whatever else the state holds (R183, R185).
BOUNDARY: with budget left, one instruction; without, the call returns `Used(requested - cycles)` (R131, R134, R135).
IDLE: the core waits and keeps all its state (R140, R197). -/
def State.transition (run : Instr → State → Host.Outcome State Fault Refusal) (s : State) :
    Host.Outcome State Fault Refusal :=
  match s.fault with
  | some r => .fault (.unknownOpcode r.op r.pc)
  | none =>
    match s.call with
    | .running requested cycles =>
      if 0 < cycles then s.runInstruction run
      else .next { s with call := .returned (.used (requested - cycles)) }
    | .idle => .next s
    | .returned _ => .next s

/-- One step of a machine of any configuration (R9, R138); under `config` it is `step`. -/
def stepIn (cfg : Config) (s : State) : Host.Outcome State Fault Refusal := s.transition (execIn cfg)

end Sys2Proof.Machine
end

