-- ==== Sys2Proof/Machine/Step.lean ====
section
/-! DEFINITION. One step of the machine: one transition of the cycle-state machine (Machine/Loop.lean). And the state
in which the very next step runs a given instruction. -/

namespace Sys2Proof.Machine

/-- One step (spec/41_dispatch_loop.md R140): an instruction run whole, a call's return, an idle wait, or the stop of
a faulted core. -/
def step (s : State) : Host.Outcome State Fault Refusal := s.transition exec

/-- `s` with an instruction of spec/opcode_table.json's numbering stored at PC, where the next fetch reads (R44), the
bits from `nbits` up zero, and, if the core is not already at a boundary with budget left, the host's `execute(1)`
begun, which runs exactly one instruction (R196). A fault record would stop the fetch, so there is none. -/
def State.withFetchWord (s : State) (nbits w : Nat) : State :=
  { s with
    mem := s.mem.writeAll s.pc (tableBytes nbits w)
    fault := none
    call := s.call.withBudget }

end Sys2Proof.Machine
end

