-- ==== Sys2Proof/Machine/Timing.lean ====
section
/-! DEFINITION. The tables of spec/70_reset_and_hazards.md: the cycle cost of each instruction (R222) and its memory
accesses cycle by cycle (R223), each written from its table and from the closed form of the addresses, not from the
resolvers; the statements compare the two. -/

namespace Sys2Proof.Machine

/-- Where the high byte of the zero-page pointer at `zp` stands, `hi-ptr` in R223 (R108). -/
def ptrHiAddr (rule : ZpPtrHi) (zp : Byte) : Word :=
  match rule with
  | .linear => zext16 zp + 1
  | .zpWrap => zext16 (zp + 1)

/-- The zero-page pointer at `zp` (R108). -/
def Memory.pointer (m : Memory) (rule : ZpPtrHi) (zp : Byte) : Word :=
  joinLE (m.read (zext16 zp)) (m.read (ptrHiAddr rule zp))

/-- The extra cycle of a page cross, as a number (R101, R222). -/
def pageCrossCost (rule : PageCrossRule) (base : Word) (idx : Byte) : Nat := if pageCross rule base idx then 1 else 0

/-- The cycle cost of an instruction started in `s` (R222). -/
def cycleCost (cfg : Config) (s : State) : Instr → Nat
  | .ldaImm _ => 2
  | .ldaZp _ => 3
  | .ldaZpX _ => 4
  | .ldaAbs _ => 4
  | .ldaAbsX base => 4 + pageCrossCost cfg.pageCrossRule base s.x
  | .ldaAbsY base => 4 + pageCrossCost cfg.pageCrossRule base s.y
  | .ldaIndX _ => 6
  | .ldaIndY b => 5 + pageCrossCost cfg.pageCrossRule (s.mem.pointer cfg.zpPtrHi b) s.y
  | .jsr _ => 6

/-- What one cycle of an instruction does on the memory (R223). -/
inductive BusCycle where
  /-- `F`: a fetch at PC. -/
  | fetch (addr : Word)
  /-- `R a`. -/
  | read (addr : Word)
  /-- `W a`. -/
  | write (addr : Word)
  /-- `-`: an extra cycle, no access (R111; its place is the spec's choice and not observable, D7, log entry 14). -/
  | extra
deriving DecidableEq, Repr

/-- The address a cycle accesses, if it accesses one. -/
def BusCycle.addr? : BusCycle → Option Word
  | .fetch a => some a
  | .read a => some a
  | .write a => some a
  | .extra => none

/-- `[-]`: present only on a page cross (R223). -/
def pageCrossCycle (rule : PageCrossRule) (base : Word) (idx : Byte) : List BusCycle :=
  if pageCross rule base idx then [.extra] else []

/-- R223's row for an instruction started in `s`, with `p` the opcode's address. -/
def accessTable (cfg : Config) (s : State) : Instr → List BusCycle
  | .ldaImm _ => [.fetch s.pc, .fetch (s.pc + 1)]
  | .ldaZp b => [.fetch s.pc, .fetch (s.pc + 1), .read (zext16 b)]
  | .ldaZpX b => [.fetch s.pc, .fetch (s.pc + 1), .extra, .read (zext16 (b + s.x))]
  | .ldaAbs w => [.fetch s.pc, .fetch (s.pc + 1), .fetch (s.pc + 2), .read w]
  | .ldaAbsX w =>
    [.fetch s.pc, .fetch (s.pc + 1), .fetch (s.pc + 2)] ++ pageCrossCycle cfg.pageCrossRule w s.x
      ++ [.read (w + zext16 s.x)]
  | .ldaAbsY w =>
    [.fetch s.pc, .fetch (s.pc + 1), .fetch (s.pc + 2)] ++ pageCrossCycle cfg.pageCrossRule w s.y
      ++ [.read (w + zext16 s.y)]
  | .ldaIndX b =>
    [.fetch s.pc, .fetch (s.pc + 1), .extra, .read (zext16 (b + s.x)), .read (ptrHiAddr cfg.zpPtrHi (b + s.x)),
      .read (s.mem.pointer cfg.zpPtrHi (b + s.x))]
  | .ldaIndY b =>
    [.fetch s.pc, .fetch (s.pc + 1), .read (zext16 b), .read (ptrHiAddr cfg.zpPtrHi b)]
      ++ pageCrossCycle cfg.pageCrossRule (s.mem.pointer cfg.zpPtrHi b) s.y
      ++ [.read (s.mem.pointer cfg.zpPtrHi b + zext16 s.y)]
  | .jsr _ =>
    [.fetch s.pc, .fetch (s.pc + 1), .fetch (s.pc + 2), .write (stackAddr s.sp), .write (stackAddr s.sp + 1), .extra]

end Sys2Proof.Machine
end

