-- ==== Sys2Proof/Machine/FetchLoop.lean ====
section
/-! DEFINITION. The loop body of spec/41_dispatch_loop.md R131 as the spec writes it: an opcode is fetched and looked
up, and the resolver fetches its operand bytes itself (spec/40_addressing_modes.md R102 to R109), each primitive noting
the cycle it takes (R223). It is the reference the machine's step, which decodes the whole instruction first, is
compared with. -/

namespace Sys2Proof.Machine

/-- A state with the bus cycles taken so far, oldest first. -/
structure Bus where
  st : State
  log : List BusCycle
deriving DecidableEq, Repr

/-- `Fetch8()` (R44). -/
def Bus.fetch8 (b : Bus) : Byte × Bus := (b.st.fetch8.1, ⟨b.st.fetch8.2, b.log ++ [.fetch b.st.pc]⟩)

/-- `Fetch16()` (R45). -/
def Bus.fetch16 (b : Bus) : Word × Bus :=
  let (lo, b₁) := b.fetch8
  let (hi, b₂) := b₁.fetch8
  (joinLE lo hi, b₂)

/-- `Read8(a)` (R46). -/
def Bus.read8 (b : Bus) (a : Word) : Byte × Bus := ((b.st.read8 a).1, ⟨(b.st.read8 a).2, b.log ++ [.read a]⟩)

/-- `Read16(a)` (R47). -/
def Bus.read16 (b : Bus) (a : Word) : Word × Bus :=
  let (lo, b₁) := b.read8 a
  let (hi, b₂) := b₁.read8 (inc16 a)
  (joinLE lo hi, b₂)

/-- `Write16(a, v)` (R48). -/
def Bus.write16 (b : Bus) (a v : Word) : Bus := ⟨b.st.write16 a v, b.log ++ [.write a, .write (inc16 a)]⟩

/-- An extra cycle, `Tick(1)` without an access (R111). -/
def Bus.extra (b : Bus) : Bus := ⟨b.st.tick 1, b.log ++ [.extra]⟩

/-- `ReadPtr(zp)` (R108). -/
def Bus.readPtr (cfg : Config) (zp : Byte) (b : Bus) : Word × Bus :=
  match cfg.zpPtrHi with
  | .linear => b.read16 (zext16 zp)
  | .zpWrap =>
    let (lo, b₁) := b.read8 (zext16 zp)
    let (hi, b₂) := b₁.read8 (zext16 (add8 zp 1))
    (joinLE lo hi, b₂)

/-- `if PageCross(base, idx) then Tick(1)` (R106). -/
def Bus.penalty (cfg : Config) (base : Word) (idx : Byte) (b : Bus) : Bus :=
  if pageCross cfg.pageCrossRule base idx then b.extra else b

/-- What a resolver returns (R100). -/
inductive Resolved where
  | value (v : Byte)
  | addr (ea : Word)
deriving DecidableEq, Repr

/-- `Resolve(mode)` (R102 to R109). -/
def Bus.resolve (cfg : Config) (b : Bus) : AddrMode → Resolved × Bus
  | .immediate =>
    let (v, b₁) := b.fetch8
    (.value v, b₁)
  | .zeroPage =>
    let (z, b₁) := b.fetch8
    (.addr (zext16 z), b₁)
  | .zeroPageX =>
    let (z, b₁) := b.fetch8
    let b₂ := b₁.extra
    (.addr (zext16 (add8 z b₂.st.x)), b₂)
  | .absolute =>
    let (w, b₁) := b.fetch16
    (.addr w, b₁)
  | .absoluteX =>
    let (base, b₁) := b.fetch16
    (.addr (add16 base b₁.st.x), b₁.penalty cfg base b₁.st.x)
  | .absoluteY =>
    let (base, b₁) := b.fetch16
    (.addr (add16 base b₁.st.y), b₁.penalty cfg base b₁.st.y)
  | .indirectX =>
    let (z, b₁) := b.fetch8
    let b₂ := b₁.extra
    let (ptr, b₃) := b₂.readPtr cfg (add8 z b₂.st.x)
    (.addr ptr, b₃)
  | .indirectY =>
    let (z, b₁) := b.fetch8
    let (ptr, b₂) := b₁.readPtr cfg z
    (.addr (add16 ptr b₂.st.y), b₂.penalty cfg ptr b₂.st.y)

/-- `ExecLDA(mode)` (R150). -/
def Bus.execLDA (cfg : Config) (mode : AddrMode) (b : Bus) : Bus :=
  let (r, b₁) := b.resolve cfg mode
  let (v, b₂) := match r with
    | .value x => (x, b₁)
    | .addr ea => b₁.read8 ea
  ⟨b₂.st.loadA v, b₂.log⟩

/-- `ExecJSR()` (R170). -/
def Bus.execJSR (b : Bus) : Bus :=
  let (target, b₁) := b.fetch16
  let b₂ := b₁.write16 (stackAddr b₁.st.sp) (dec16 b₁.st.pc)
  let b₃ : Bus := ⟨{ b₂.st with sp := b₂.st.sp + 2 }, b₂.log⟩
  let b₄ := b₃.extra
  ⟨{ b₄.st with pc := target }, b₄.log⟩

/-- One pass of R131's loop body. -/
def Bus.iteration (cfg : Config) (b : Bus) : Bus :=
  let pc0 := b.st.pc
  let (op, b₁) := b.fetch8
  match lookup op with
  | some row =>
    match row.operation with
    | .lda mode => b₁.execLDA cfg mode
    | .jsr => b₁.execJSR
  | none => ⟨b₁.st.raiseUnknownOpcode op pc0, b₁.log⟩

end Sys2Proof.Machine
end

