-- ==== Sys2Proof/Machine/HostOps.lean ====
section
/-! DEFINITION. What the host may do to the machine between `execute` calls (spec/70_reset_and_hazards.md R210 to
R218): reset, start a call, write a byte, a register or a flag; what it may read; and `execute` as the host sees it
(spec/41_dispatch_loop.md R130, R131), the run of steps from the call to its return. -/

namespace Sys2Proof.Machine

/-- The 8-bit registers the host may write (R216). -/
inductive Reg8 where
  | a
  | x
  | y
deriving DecidableEq, Repr

/-- The 16-bit registers the host may write (R216). -/
inductive Reg16 where
  | pc
  | sp
deriving DecidableEq, Repr

/-- The flags the host may write (R216). -/
inductive FlagName where
  | c
  | z
  | i
  | d
  | b
  | v
  | n
deriving DecidableEq, Repr

/-- The host's operations (R210, R216). -/
inductive HostOp where
  /-- `reset(memory)` (R210). -/
  | reset
  /-- `reset(vector, memory)` (R211). -/
  | resetTo (vector : Word)
  /-- `execute(requested, memory)`: the call begins; steps carry it out (R130). -/
  | execute (requested : Int)
  /-- `writeByte(address, value)` (R43, R216). -/
  | writeByte (addr : Word) (value : Byte)
  | writeReg8 (r : Reg8) (value : Byte)
  | writeReg16 (r : Reg16) (value : Word)
  | writeFlag (f : FlagName) (value : Bool)
deriving DecidableEq, Repr

/-- The host reads an 8-bit register (R216).The spec forbids the host this during a call and gives it no effect (R64); that the model answers the state's value
then too is its own choice (DESIGN CHOICE, log entry 10). -/
def State.readReg8 (s : State) : Reg8 → Byte
  | .a => s.a
  | .x => s.x
  | .y => s.y

/-- The host reads a 16-bit register (R216).The spec forbids the host this during a call and gives it no effect (R64); that the model answers the state's value
then too is its own choice (DESIGN CHOICE, log entry 10). -/
def State.readReg16 (s : State) : Reg16 → Word
  | .pc => s.pc
  | .sp => s.sp

/-- The host reads a flag (R216).The spec forbids the host this during a call and gives it no effect (R64); that the model answers the state's value
then too is its own choice (DESIGN CHOICE, log entry 10). -/
def State.readFlag (s : State) : FlagName → Bool
  | .c => s.flags.c
  | .z => s.flags.z
  | .i => s.flags.i
  | .d => s.flags.d
  | .b => s.flags.b
  | .v => s.flags.v
  | .n => s.flags.n

/-- The host reads a byte with `readByte`, uncharged (R43, R216).The spec forbids the host this during a call and gives it no effect (R64); that the model answers the state's value
then too is its own choice (DESIGN CHOICE, log entry 10). -/
def State.readByte (s : State) (addr : Word) : Byte := s.mem.read addr

/-- The host writes an 8-bit register (R216). -/
def State.writeReg8 (s : State) (value : Byte) : Reg8 → State
  | .a => { s with a := value }
  | .x => { s with x := value }
  | .y => { s with y := value }

/-- The host writes a 16-bit register (R216). -/
def State.writeReg16 (s : State) (value : Word) : Reg16 → State
  | .pc => { s with pc := value }
  | .sp => { s with sp := value }

/-- The host writes one flag, on its own (R28, R216). -/
def Flags.write (fl : Flags) (value : Bool) : FlagName → Flags
  | .c => { fl with c := value }
  | .z => { fl with z := value }
  | .i => { fl with i := value }
  | .d => { fl with d := value }
  | .b => { fl with b := value }
  | .v => { fl with v := value }
  | .n => { fl with n := value }

/-- Requests a counter width can serve (R9, D6, U8): a 32-bit build could overflow `requested - cycles` above 2^31 - 6,
and cannot be handed a number below -2^31. -/
def requestFits (cfg : Config) (requested : Int) : Bool :=
  match cfg.cycleCounter with
  | .unbounded => true
  | .signed32 => -(2 ^ 31) ≤ requested && requested ≤ 2 ^ 31 - 6

/-- The start of `execute(requested)` (R131): a faulted core reports its fault again, without access or change, whatever
`requested` is (R185); otherwise the budget is created from the request (R132). -/
def State.beginExecute (cfg : Config) (s : State) (requested : Int) : Host.Outcome State Fault Refusal :=
  match s.fault with
  | some r => .next { s with call := .returned (.fault r.op r.pc) }
  | none =>
    if requestFits cfg requested then .next { s with call := .running requested requested }
    else .refused (.requestTooWide requested)

/-- A host operation while the core is idle (R211, R214, R216). None but `execute` touches a cycle count (R43, R213).
A faulted core may be read and written too; only reset clears its fault (R185, R214; log entry 16). -/
def State.hostIdle (cfg : Config) (s : State) : HostOp → Host.Outcome State Fault Refusal
  | .reset => .next (s.resetTo cfg Config.defaultVector)
  | .resetTo vector => .next (s.resetTo cfg vector)
  | .execute requested => s.beginExecute cfg requested
  | .writeByte addr value => .next { s with mem := s.mem.write addr value }
  | .writeReg8 r value => .next (s.writeReg8 value r)
  | .writeReg16 r value => .next (s.writeReg16 value r)
  | .writeFlag f value => .next { s with flags := s.flags.write value f }

/-- A host operation that writes, resets or begins a call, refused while a call runs (R64, R216; DESIGN CHOICE, log
entry 10). -/
def State.host (cfg : Config) (s : State) (op : HostOp) : Host.Outcome State Fault Refusal :=
  match s.call with
  | .running _ _ => .refused .callInProgress
  | .idle => s.hostIdle cfg op
  | .returned _ => s.hostIdle cfg op

/-- Host operations one after another, as in the boot sequence of R217; stops at the first that does not succeed. -/
def State.hostAll (cfg : Config) (s : State) : List HostOp → Host.Outcome State Fault Refusal
  | [] => .next s
  | op :: ops =>
    match s.host cfg op with
    | .next t => t.hostAll cfg ops
    | .fault r => .fault r
    | .refused r => .refused r

/-- Step until the call returns, at most `fuel` steps, each a step of the configuration given (R138). -/
def State.runCall (cfg : Config) : Nat → State → Host.Outcome State Fault Refusal
  | 0, s => .next s
  | fuel + 1, s =>
    match s.call with
    | .running _ _ =>
      match stepIn cfg s with
      | .next t => State.runCall cfg fuel t
      | .fault r => .fault r
      | .refused r => .refused r
    | .idle => .next s
    | .returned _ => .next s

/-- `execute(requested)` from the call to its return (R130, R131): the state the host finds, its result in `call`.
All of it is under the configuration given: the counter, the page-cross rule and the pointer rule (R9, R138). Every
instruction costs at least one cycle, so a budget of n buys at most n instructions, and one more step returns (R139). -/
def State.execute (cfg : Config) (s : State) (requested : Int) : Host.Outcome State Fault Refusal :=
  match s.host cfg (.execute requested) with
  | .next t => t.runCall cfg (requested.toNat + 1)
  | .fault r => .fault r
  | .refused r => .refused r

end Sys2Proof.Machine
end

