-- ==== Sys2Proof/Safety.lean ====
section
/-! DEFINITION. The terms the statements use: the invariant of the machine, the states a host can bring it to, a
fault-free run, and a sequence of instructions run one after another. -/

namespace Sys2Proof.Machine

/-- The fault record, the call and the budget agree (spec/10_state.md R32, R33; spec/41_dispatch_loop.md R134 to R136;
spec/60_exceptions.md R180, R182, R185). A recorded opcode is outside the map and the last call returned that very fault;
a running call's budget never exceeds its request, and below zero only by an overshoot of at most 5 or as requested; a
returned count is not negative. -/
def State.CallConsistent (s : State) : Prop :=
  (∀ r, s.fault = some r → lookup r.op = none ∧ s.call = .returned (.fault r.op r.pc)) ∧
  (∀ op pc, s.call = .returned (.fault op pc) → s.fault = some ⟨op, pc⟩) ∧
  (∀ requested cycles, s.call = .running requested cycles →
    cycles ≤ requested ∧ (cycles = requested ∨ -5 ≤ cycles)) ∧
  (∀ n, s.call = .returned (.used n) → 0 ≤ n)

/-- The invariant of the machine: the memory is in canonical form, and fault, call and budget agree. -/
def State.Inv (s : State) : Prop := s.mem.wf ∧ s.CallConsistent

/-- The states host and core of a configuration can bring the machine to from reset (R9, R35, R140, R216). -/
inductive Reachable (cfg : Config) : State → Prop where
  | reset : Reachable cfg (State.reset.resetTo cfg Config.defaultVector)
  | host (s t : State) (op : HostOp) : Reachable cfg s → s.host cfg op = .next t → Reachable cfg t
  | step (s t : State) : Reachable cfg s → stepIn cfg s = .next t → Reachable cfg t

/-- The core is at an instruction boundary with budget left, and has not faulted: the next step fetches (R133). -/
def State.AtBoundary (s : State) (requested cycles : Int) : Prop :=
  s.fault = none ∧ s.call = .running requested cycles ∧ 0 < cycles

/-- No call runs: the host may act (R64, R216). -/
def State.Idle (s : State) : Prop := ∀ requested cycles, s.call ≠ .running requested cycles

/-- The registers and flags no instruction writes: X, Y, C, I, D, B and V (R22, R23, R30). -/
def State.SameInert (s t : State) : Prop :=
  t.x = s.x ∧ t.y = s.y ∧ t.flags.c = s.flags.c ∧ t.flags.i = s.flags.i ∧ t.flags.d = s.flags.d ∧
    t.flags.b = s.flags.b ∧ t.flags.v = s.flags.v

/-- Given instructions run one after another, each whole. -/
def execAll : List Instr → State → Host.Outcome State Fault Refusal
  | [], s => .next s
  | i :: is, s =>
    match exec i s with
    | .next t => execAll is t
    | .fault r => .fault r
    | .refused r => .refused r

end Sys2Proof.Machine
end

