-- ==== Sys2Proof/Certificates/Slice0/Obligations.lean ====
section
/-! DEFINITION. The statements for the provers. Each docstring names the rule of spec/ it formalises. `exec` and `step`
run under `config`, the spec's default configuration (spec/00_scope.md R9); statements that take a `cfg` hold for every
configuration R9 names. -/

open Sys2Proof Sys2Proof.Machine

/-! ### Reset and the host -/

/-- spec/10_state.md R34: the value of every piece of state after reset, and PC after a reset under `Deref`. (The literal
vector is the spec's decision D1, log entry 1; that memory is the list it is, log entry 13.) -/
def Obligations.ResetLeavesSpecValues : Prop :=
  State.reset.pc = 0xFFFC ∧ State.reset.sp = 0x0000 ∧ State.reset.a = 0x00 ∧ State.reset.x = 0x00 ∧
  State.reset.y = 0x00 ∧ State.reset.flags = ⟨false, false, false, false, false, false, false⟩ ∧
  (∀ addr, State.reset.mem.read addr = 0x00) ∧ State.reset.fault = none ∧ State.reset.call = .idle ∧
  ∀ (cfg : Config) (s : State) (vector : Word), cfg.resetPcMode = .deref → (s.resetTo cfg vector).pc = 0x0000

/-- spec/70_reset_and_hazards.md R210, R211, R214: between calls, after a fault too, the host's reset gives the reset
state with PC at the vector (`Literal`) or at the word read there after the zero fill (`Deref`), and 0xFFFC is the
default vector. (Which mode a build has is the spec's decision D1, log entry 1.) -/
def Obligations.HostResetGivesResetState : Prop :=
  ∀ (cfg : Config) (s : State), s.Idle →
    (∀ vector, s.host cfg (.resetTo vector) = .next { State.reset with
      pc := if cfg.resetPcMode = .literal then vector
        else State.reset.mem.read (vector + 1) ++ State.reset.mem.read vector }) ∧
    s.host cfg .reset = s.host cfg (.resetTo 0xFFFC)

/-- spec/70_reset_and_hazards.md R215: resetting twice leaves the state resetting once leaves. -/
def Obligations.ResetTwiceIsResetOnce : Prop :=
  ∀ (cfg : Config) (s t : State) (vector : Word),
    s.host cfg (.resetTo vector) = .next t → t.host cfg (.resetTo vector) = .next t

/-- spec/70_reset_and_hazards.md R216: between calls the host writes a byte, a register or a flag, which then reads as
written, and everything else reads as before; no cycle is charged. (The host's access is the spec's decision D13.) -/
def Obligations.HostWritesExactlyOneThing : Prop :=
  ∀ (cfg : Config) (s : State), s.Idle →
    (∀ addr v, ∃ t, s.host cfg (.writeByte addr v) = .next t ∧
      (∀ b, t.readByte b = if b = addr then v else s.readByte b) ∧ t = { s with mem := t.mem }) ∧
    (∀ r v, ∃ t, s.host cfg (.writeReg8 r v) = .next t ∧
      (∀ r', t.readReg8 r' = if r' = r then v else s.readReg8 r') ∧ t = { s with a := t.a, x := t.x, y := t.y }) ∧
    (∀ r v, ∃ t, s.host cfg (.writeReg16 r v) = .next t ∧
      (∀ r', t.readReg16 r' = if r' = r then v else s.readReg16 r') ∧ t = { s with pc := t.pc, sp := t.sp }) ∧
    (∀ f v, ∃ t, s.host cfg (.writeFlag f v) = .next t ∧
      (∀ f', t.readFlag f' = if f' = f then v else s.readFlag f') ∧ t = { s with flags := t.flags })

/-- spec/20_memory.md R64, spec/70_reset_and_hazards.md R216: no host operation acts while a call runs. That the model
REFUSES the attempt is the model's choice (log entry 10). -/
def Obligations.HostRefusedDuringCall : Prop :=
  ∀ (cfg : Config) (s : State) (requested cycles : Int) (op : HostOp),
    s.call = .running requested cycles → s.host cfg op = .refused .callInProgress

/-- The model's choice for a 32-bit counter build (spec/93_implementation_defined.md U8; log entry 5): a request above
2^31 - 6 is refused, one in range begins its call; the unbounded counter serves every request. -/
def Obligations.NarrowCounterRefusesWideRequest : Prop :=
  ∀ (cfg : Config) (s : State) (requested : Int), s.Idle → s.fault = none →
    (cfg.cycleCounter = .signed32 → 2 ^ 31 - 6 < requested →
      s.host cfg (.execute requested) = .refused (.requestTooWide requested)) ∧
    (cfg.cycleCounter = .signed32 → -(2 ^ 31) ≤ requested → requested ≤ 2 ^ 31 - 6 →
      s.host cfg (.execute requested) = .next { s with call := .running requested requested }) ∧
    (cfg.cycleCounter = .unbounded →
      s.host cfg (.execute requested) = .next { s with call := .running requested requested })

/-! ### Memory and the access primitives -/

/-- The canonical form of the model's memory (log entry 13): two canonical memories that read alike everywhere are equal
data. -/
def Obligations.CanonicalMemoryDeterminedByReads : Prop :=
  ∀ m m' : Memory, m.wf → m'.wf → (∀ addr, m.read addr = m'.read addr) → m = m'

/-- spec/20_memory.md R44, R45 and spec/10_state.md R25: the fetches return the bytes at PC, low byte first, advance PC
mod 2^16, charge one cycle a byte and change nothing else. -/
def Obligations.FetchesAdvancePcAndCharge : Prop :=
  ∀ (s : State) (requested cycles : Int), s.call = .running requested cycles →
    s.fetch8.1 = s.mem.read s.pc ∧ s.fetch8.2.pc.toNat = (s.pc.toNat + 1) % 2 ^ 16 ∧
    s.fetch8.2 = { s with pc := s.fetch8.2.pc, call := .running requested (cycles - 1) } ∧
    s.fetch16.1.toNat = (s.mem.read (s.pc + 1)).toNat * 256 + (s.mem.read s.pc).toNat ∧
    s.fetch16.2.pc.toNat = (s.pc.toNat + 2) % 2 ^ 16 ∧
    s.fetch16.2 = { s with pc := s.fetch16.2.pc, call := .running requested (cycles - 2) }

/-- spec/20_memory.md R46, R47: the reads return the byte or the little-endian word at the address, charge one cycle a
byte and change nothing else, PC included. -/
def Obligations.ReadsChargeAndChangeNothing : Prop :=
  ∀ (s : State) (addr : Word) (requested cycles : Int), s.call = .running requested cycles →
    s.read8 addr = (s.mem.read addr, { s with call := .running requested (cycles - 1) }) ∧
    s.read16 addr = (s.mem.read (addr + 1) ++ s.mem.read addr, { s with call := .running requested (cycles - 2) })

/-- spec/20_memory.md R48: a word write puts the low byte at the address and the high byte at the next, mod 2^16, leaves
every other byte, charges two cycles and changes nothing else. -/
def Obligations.WordWriteLittleEndian : Prop :=
  ∀ (s : State) (addr v : Word) (requested cycles : Int), s.call = .running requested cycles →
    (s.write16 addr v).mem.read addr = v.extractLsb' 0 8 ∧
    (s.write16 addr v).mem.read (addr + 1) = v.extractLsb' 8 8 ∧
    (∀ b, b ≠ addr → b ≠ addr + 1 → (s.write16 addr v).mem.read b = s.mem.read b) ∧
    s.write16 addr v = { s with mem := (s.write16 addr v).mem, call := .running requested (cycles - 2) }

/-- spec/20_memory.md R51, R52 (R52 is the spec's own derivation): a word written is the word read at any address, 0xFFFF
too, and a word read of two bytes written separately, in either order, returns them joined, the lower address low. -/
def Obligations.MixedWidthAccessesAgree : Prop :=
  ∀ (s : State) (addr v : Word) (lo hi : Byte),
    ((s.write16 addr v).read16 addr).1 = v ∧
    (State.read16 { s with mem := (s.mem.write addr lo).write (addr + 1) hi } addr).1 = hi ++ lo ∧
    (State.read16 { s with mem := (s.mem.write (addr + 1) hi).write addr lo } addr).1 = hi ++ lo

/-! ### The datapath -/

/-- spec/10_state.md R36, R37: the adders, the incrementer, the decrementer and the SP step as modular arithmetic. -/
def Obligations.AddersAreModular : Prop :=
  (∀ a b : Byte, (add8 a b).toNat = (a.toNat + b.toNat) % 2 ^ 8) ∧
  (∀ (a : Word) (b : Byte), (add16 a b).toNat = (a.toNat + b.toNat) % 2 ^ 16) ∧
  (∀ a : Word, (inc16 a).toNat = (a.toNat + 1) % 2 ^ 16) ∧
  (∀ a : Word, ((dec16 a).toNat : Int) = ((a.toNat : Int) - 1) % 2 ^ 16) ∧
  (∀ (target : Word) (s : State), ∃ t, exec (.jsr target) s = .next t ∧ t.sp.toNat = (s.sp.toNat + 2) % 2 ^ 16)

/-- spec/10_state.md R26: the stack address is 0x0100 plus SP's low byte, always in page 1; SP's high byte takes no
part. -/
def Obligations.StackAddressStaysInPageOne : Prop :=
  ∀ sp : Word, (stackAddr sp).toNat = 0x0100 + sp.toNat % 256 ∧
    0x0100 ≤ (stackAddr sp).toNat ∧ (stackAddr sp).toNat ≤ 0x01FF ∧
    ∀ hi : Byte, stackAddr (hi ++ sp.extractLsb' 0 8) = stackAddr sp

/-- spec/40_addressing_modes.md R101: under `HighByte` the predicate holds exactly when the high bytes of base and
base + index differ, which is when the low byte and the index sum to 0x100 or more; under `RefDiff` exactly when the
index is 0xFF. (Which rule a build has is the spec's decision D2, log entry 2.) -/
def Obligations.PageCrossPredicate : Prop :=
  ∀ (base : Word) (idx : Byte),
    (pageCross .highByte base idx = true ↔ base.extractLsb' 8 8 ≠ (base + idx.setWidth 16).extractLsb' 8 8) ∧
    (pageCross .highByte base idx = true ↔ 0x100 ≤ base.toNat % 256 + idx.toNat) ∧
    (pageCross .refDiff base idx = true ↔ idx = 0xFF)

/-- spec/10_state.md R38: Z is set iff the value is 0x00, N is its bit 7, no other flag and nothing else is written;
the load path writes the value to A unchanged. -/
def Obligations.SetZNWritesZeroAndNegative : Prop :=
  ∀ (s : State) (v : Byte),
    ((s.setZN v).flags.z = true ↔ v = 0x00) ∧ ((s.setZN v).flags.n = true ↔ 0x80 ≤ v.toNat) ∧
    s.setZN v = { s with flags := { s.flags with z := (s.setZN v).flags.z, n := (s.setZN v).flags.n } } ∧
    s.loadA v = { s.setZN v with a := v }

/-! ### The addressing-mode resolver -/

/-- spec/40_addressing_modes.md R102 to R107, R109, R110, and R100's frame, for every configuration: the address (or
value) each resolver returns and its cost. Each changes PC and the budget only. (R110 is the spec's derivation; the
penalty and the pointer follow D2 and D3, log entries 2 and 3.) -/
def Obligations.ResolversReturnAddressAndCost : Prop :=
  ∀ (cfg : Config) (s : State) (b : Byte) (w : Word),
    let after (pcs n : Nat) : State := { s with pc := s.pc + BitVec.ofNat 16 pcs, call := s.call.charge n }
    let penalty (base : Word) (idx : Byte) : Nat := if pageCross cfg.pageCrossRule base idx then 1 else 0
    let ptr := (s.readPtr cfg b).1
    resolveImm b s = (b, after 1 1) ∧
    resolveZp b s = (b.setWidth 16, after 1 1) ∧
    resolveZpX b s = ((b + s.x).setWidth 16, after 1 2) ∧
    resolveAbs w s = (w, after 2 2) ∧
    resolveAbsX cfg w s = (w + s.x.setWidth 16, after 2 (2 + penalty w s.x)) ∧
    resolveAbsY cfg w s = (w + s.y.setWidth 16, after 2 (2 + penalty w s.y)) ∧
    resolveIndX cfg b s = ((s.readPtr cfg (b + s.x)).1, after 1 4) ∧
    resolveIndY cfg b s = (ptr + s.y.setWidth 16, after 1 (3 + penalty ptr s.y))

/-- spec/40_addressing_modes.md R108, `ReadPtr`: two cycles, low byte at zp, high byte at (zp + 1) mod 2^16 under
`Linear` and at (zp + 1) mod 256 under `ZpWrap`, so at 0x0100 or 0x0000 for zp = 0xFF. (Which a build has is the spec's
decision D3, log entry 3.) -/
def Obligations.PointerHighByteAddress : Prop :=
  ∀ (cfg : Config) (s : State) (zp : Byte),
    (cfg.zpPtrHi = .linear → s.readPtr cfg zp =
      (s.mem.read (BitVec.ofNat 16 (zp.toNat + 1)) ++ s.mem.read (BitVec.ofNat 16 zp.toNat),
        { s with call := s.call.charge 2 })) ∧
    (cfg.zpPtrHi = .zpWrap → s.readPtr cfg zp =
      (s.mem.read (BitVec.ofNat 16 ((zp.toNat + 1) % 256)) ++ s.mem.read (BitVec.ofNat 16 zp.toNat),
        { s with call := s.call.charge 2 }))

/-! ### The load-accumulator family: every instruction completes, with this next state -/

/-- spec/42_load_lda.md R151. The opcode 0xA9 is the source's. -/
def Obligations.LdaImmediateResult : Prop :=
  ∀ (b : Byte) (s : State),
    encode (.ldaImm b) = [0xA9, b] ∧
    exec (.ldaImm b) s = .next { s with
      pc := s.pc + 2
      a := b
      flags := { s.flags with z := b == 0x00, n := b.getLsbD 7 }
      call := s.call.charge 2 }

/-- spec/42_load_lda.md R152. The opcode value is PRESUMED (log entry 4). -/
def Obligations.LdaZeroPageResult : Prop :=
  ∀ (b : Byte) (s : State),
    let v := s.mem.read (b.setWidth 16)
    encode (.ldaZp b) = [0xA5, b] ∧
    exec (.ldaZp b) s = .next { s with
      pc := s.pc + 2
      a := v
      flags := { s.flags with z := v == 0x00, n := v.getLsbD 7 }
      call := s.call.charge 3 }

/-- spec/42_load_lda.md R153. The opcode value is PRESUMED (log entry 4). -/
def Obligations.LdaZeroPageXResult : Prop :=
  ∀ (b : Byte) (s : State),
    let v := s.mem.read ((b + s.x).setWidth 16)
    encode (.ldaZpX b) = [0xB5, b] ∧
    exec (.ldaZpX b) s = .next { s with
      pc := s.pc + 2
      a := v
      flags := { s.flags with z := v == 0x00, n := v.getLsbD 7 }
      call := s.call.charge 4 }

/-- spec/42_load_lda.md R154. The opcode value is PRESUMED (log entry 4). -/
def Obligations.LdaAbsoluteResult : Prop :=
  ∀ (w : Word) (s : State),
    let v := s.mem.read w
    encode (.ldaAbs w) = [0xAD, w.extractLsb' 0 8, w.extractLsb' 8 8] ∧
    exec (.ldaAbs w) s = .next { s with
      pc := s.pc + 3
      a := v
      flags := { s.flags with z := v == 0x00, n := v.getLsbD 7 }
      call := s.call.charge 4 }

/-- spec/42_load_lda.md R155, with `PageCross` under `HighByte` (R101, D2, log entry 2). The opcode value is PRESUMED (log
entry 4). -/
def Obligations.LdaAbsoluteXResult : Prop :=
  ∀ (w : Word) (s : State),
    let ea := w + s.x.setWidth 16
    let v := s.mem.read ea
    encode (.ldaAbsX w) = [0xBD, w.extractLsb' 0 8, w.extractLsb' 8 8] ∧
    exec (.ldaAbsX w) s = .next { s with
      pc := s.pc + 3
      a := v
      flags := { s.flags with z := v == 0x00, n := v.getLsbD 7 }
      call := s.call.charge (if w.extractLsb' 8 8 = ea.extractLsb' 8 8 then 4 else 5) }

/-- spec/42_load_lda.md R156, with `PageCross` under `HighByte` (R101, D2, log entry 2). The opcode value is PRESUMED (log
entry 4). -/
def Obligations.LdaAbsoluteYResult : Prop :=
  ∀ (w : Word) (s : State),
    let ea := w + s.y.setWidth 16
    let v := s.mem.read ea
    encode (.ldaAbsY w) = [0xB9, w.extractLsb' 0 8, w.extractLsb' 8 8] ∧
    exec (.ldaAbsY w) s = .next { s with
      pc := s.pc + 3
      a := v
      flags := { s.flags with z := v == 0x00, n := v.getLsbD 7 }
      call := s.call.charge (if w.extractLsb' 8 8 = ea.extractLsb' 8 8 then 4 else 5) }

/-- spec/42_load_lda.md R157, the pointer's high byte at (zp + 1) mod 2^16 (`Linear`, R108, D3, log entry 3). The opcode
value is PRESUMED (log entry 4). -/
def Obligations.LdaIndirectXResult : Prop :=
  ∀ (b : Byte) (s : State),
    let zp : Word := (b + s.x).setWidth 16
    let v := s.mem.read (s.mem.read (zp + 1) ++ s.mem.read zp)
    encode (.ldaIndX b) = [0xA1, b] ∧
    exec (.ldaIndX b) s = .next { s with
      pc := s.pc + 2
      a := v
      flags := { s.flags with z := v == 0x00, n := v.getLsbD 7 }
      call := s.call.charge 6 }

/-- spec/42_load_lda.md R158, the pointer's high byte at (zp + 1) mod 2^16 (`Linear`, R108, D3, log entry 3), `PageCross`
under `HighByte` (R101, D2, log entry 2). The opcode value is PRESUMED (log entry 4). -/
def Obligations.LdaIndirectYResult : Prop :=
  ∀ (b : Byte) (s : State),
    let zp : Word := b.setWidth 16
    let ptr : Word := s.mem.read (zp + 1) ++ s.mem.read zp
    let ea := ptr + s.y.setWidth 16
    let v := s.mem.read ea
    encode (.ldaIndY b) = [0xB1, b] ∧
    exec (.ldaIndY b) s = .next { s with
      pc := s.pc + 2
      a := v
      flags := { s.flags with z := v == 0x00, n := v.getLsbD 7 }
      call := s.call.charge (if ptr.extractLsb' 8 8 = ea.extractLsb' 8 8 then 5 else 6) }

/-- spec/42_load_lda.md R159: what a load leaves. Every LDA completes from every state, in one state only; SP, X, Y, the
flags C, I, D, B, V, the fault record and every byte of memory are as before, Z and N follow the byte now in A, and the
budget pays the instruction's cost. -/
def Obligations.LdaFrame : Prop :=
  ∀ (i : Instr) (s : State), i.isLda = true →
    ∃ t, exec i s = .next t ∧ (∀ t', exec i s = .next t' → t' = t) ∧
      t.sp = s.sp ∧ t.x = s.x ∧ t.y = s.y ∧ t.fault = s.fault ∧
      t.flags = { s.flags with z := t.a == 0x00, n := t.a.getLsbD 7 } ∧
      (∀ addr, t.mem.read addr = s.mem.read addr) ∧ t.mem = s.mem ∧
      t.pc = s.pc + BitVec.ofNat 16 i.format.length ∧ t.call = s.call.charge (cycleCost config s i)

/-- spec/10_state.md R21, R29, R30: no instruction reads A or a flag. Run with any other A and flags, an instruction
gives the same next state, but for A and the flags it does not itself write. -/
def Obligations.NoInstructionReadsAccumulatorOrFlags : Prop :=
  ∀ (i : Instr) (s : State) (v : Byte) (f : Flags), ∃ t, exec i s = .next t ∧
    exec i { s with a := v, flags := f } = .next { t with
      a := if i.isLda then t.a else v
      flags := if i.isLda then { f with z := t.flags.z, n := t.flags.n } else f }

/-! ### JSR -/

/-- spec/43_control_jsr.md R170. The opcode value is PRESUMED (log entry 4); SP's growth is the spec's decision D4 (log
entry 6). -/
def Obligations.JsrResult : Prop :=
  ∀ (target : Word) (s : State),
    let ret := s.pc + 2
    let sa : Word := 0x0100 + (s.sp.extractLsb' 0 8).setWidth 16
    encode (.jsr target) = [0x20, target.extractLsb' 0 8, target.extractLsb' 8 8] ∧
    exec (.jsr target) s = .next { s with
      pc := target
      sp := s.sp + 2
      mem := (s.mem.write sa (ret.extractLsb' 0 8)).write (sa + 1) (ret.extractLsb' 8 8)
      call := s.call.charge 6 }

/-- spec/43_control_jsr.md R171: the word pushed, read back byte by byte at the stack address SP gave before the call,
and the property the source tests; a JSR at 0xFFFE has its operand bytes at 0xFFFF and 0x0000, leaves PC at 0x0001 after
the fetch, and pushes 0x0000. -/
def Obligations.JsrPushesReturnAddress : Prop :=
  ∀ (target : Word) (s : State) (requested cycles : Int), s.call = .running requested cycles →
    ∃ t, exec (.jsr target) s = .next t ∧ t.pc = target ∧ t.sp = s.sp + 2 ∧
      t.call = .running requested (cycles - 6) ∧
      t.mem.read (stackAddr s.sp) = (s.pc + 2).extractLsb' 0 8 ∧
      t.mem.read (stackAddr s.sp + 1) = (s.pc + 2).extractLsb' 8 8 ∧
      (s.pc = 0xFFFE →
        s.opcodeFetched.fetch16.1 = s.mem.read 0x0000 ++ s.mem.read 0xFFFF ∧
        s.opcodeFetched.fetch16.2.pc = 0x0001 ∧
        t.mem.read (stackAddr s.sp) = 0x00 ∧ t.mem.read (stackAddr s.sp + 1) = 0x00)

/-- The frame of JSR (spec/43_control_jsr.md R170 to R172): every byte of memory outside the two stored at the stack
address is as before, and so are A, X, Y, all seven flags and the fault record. SP and PC are what the rule writes. -/
def Obligations.JsrFrame : Prop :=
  ∀ (target : Word) (s : State), ∃ t, exec (.jsr target) s = .next t ∧
    (∀ addr, stackAddr s.sp = addr → ∀ b, b ≠ addr → b ≠ addr + 1 → t.mem.read b = s.mem.read b) ∧
    t.a = s.a ∧ t.x = s.x ∧ t.y = s.y ∧ t.flags = s.flags ∧ t.fault = s.fault

/-- spec/43_control_jsr.md R172: the stack grows by 2 a call and wraps within page 1 through SP[7:0]. After any number of
calls, the next one's word goes to 0x0100 + (SP + 2n) mod 256, and to no other byte; with SP[7:0] = 0xFF its high byte
goes to 0x0200. (The source's known simplification, kept by the spec's decision D4, log entry 6.) -/
def Obligations.StackGrowsUpAndWrapsInPageOne : Prop :=
  ∀ (targets : List Word) (target : Word) (s : State), ∃ t u,
    execAll (targets.map .jsr) s = .next t ∧ exec (.jsr target) t = .next u ∧
    t.sp = s.sp + BitVec.ofNat 16 (2 * targets.length) ∧ u.sp = t.sp + 2 ∧
    (∀ at0 : Word, at0.toNat = 0x0100 + (s.sp.toNat + 2 * targets.length) % 256 →
      u.mem.read at0 = (t.pc + 2).extractLsb' 0 8 ∧ u.mem.read (at0 + 1) = (t.pc + 2).extractLsb' 8 8 ∧
      ∀ b, b ≠ at0 → b ≠ at0 + 1 → u.mem.read b = t.mem.read b) ∧
    (t.sp.extractLsb' 0 8 = 0xFF → u.mem.read 0x01FF = (t.pc + 2).extractLsb' 0 8 ∧
      u.mem.read 0x0200 = (t.pc + 2).extractLsb' 8 8)

/-- spec/43_control_jsr.md R173, spec/20_memory.md R62: the target's opcode is decoded only when the next instruction
starts, from memory as the push left it; an unknown opcode there faults at that point with pc = target. (R173 is the
spec's derivation, the record its decision D10, log entry 7.) -/
def Obligations.JsrTargetFetchedAfterPush : Prop :=
  ∀ (target : Word) (s t : State) (requested cycles : Int),
    exec (.jsr target) s = .next t → t.AtBoundary requested cycles →
    t.mem.read target = (if target = stackAddr s.sp then (s.pc + 2).extractLsb' 0 8
      else if target = stackAddr s.sp + 1 then (s.pc + 2).extractLsb' 8 8 else s.mem.read target) ∧
    t.fetch8.1 = t.mem.read target ∧
    (lookup (t.mem.read target) = none → ∃ u, step t = .next u ∧ u.fault = some ⟨t.mem.read target, target⟩)

/-! ### All instructions -/

/-- spec/60_exceptions.md R181, R186, R188: no instruction of the map faults. Every one completes from every state and
leaves the fault record as it was. -/
def Obligations.EveryInstructionCompletes : Prop :=
  ∀ (i : Instr) (s : State), ∃ t, exec i s = .next t ∧ t.fault = s.fault

/-- spec/70_reset_and_hazards.md R222: every instruction charges the budget exactly the cost in the table, 2 to 6 cycles;
and for every configuration the cost table and the access table of R223 agree. (Both tables are the spec's derivations.) -/
def Obligations.CyclesChargedFollowCostTable : Prop :=
  ∀ (i : Instr) (s : State),
    (∃ t, exec i s = .next t ∧ t.call = s.call.charge (cycleCost config s i)) ∧
    ∀ cfg : Config, 2 ≤ cycleCost cfg s i ∧ cycleCost cfg s i ≤ 6 ∧
      (accessTable cfg s i).length = cycleCost cfg s i

/-! ### Encoding -/

/-- spec/30_encoding.md R71 to R74: decoding the encoding of any well-formed instruction, with any operand and any bytes
after it, gives it back and leaves those bytes. (Eight opcode values are PRESUMED, log entry 4.) -/
def Obligations.DecodeOfEncode : Prop :=
  ∀ (i : Instr) (rest : List Byte), i.wellFormed = true → decode (encode i ++ rest) = .instr i rest

/-- spec/30_encoding.md R71 to R74, the other direction: what decodes to an instruction is its encoding, so each
encoding has one meaning. -/
def Obligations.EncodeOfDecode : Prop :=
  ∀ (bytes rest : List Byte) (i : Instr), decode bytes = .instr i rest → bytes = encode i ++ rest

/-- spec/30_encoding.md R77, R78: a string of bytes is exactly one instruction if and only if its opcode is in the map
and it has as many operand bytes as the format asks, whatever those bytes are. -/
def Obligations.WellFormedBytesAreTheInstructions : Prop :=
  ∀ bytes : List Byte, wellFormedBytes bytes = true ↔ ∃ i, decode bytes = .instr i []

/-- spec/30_encoding.md R74, R76: the map is the nine values of R73, and every other opcode byte is rejected by name,
whatever follows it; there are 247 of them. (Eight of the nine values are PRESUMED, log entry 4.) -/
def Obligations.UnmappedOpcodesRejected : Prop :=
  (∀ (op : Byte) (rest : List Byte),
    op ∉ [0xA9#8, 0xA5#8, 0xB5#8, 0xAD#8, 0xBD#8, 0xB9#8, 0xA1#8, 0xB1#8, 0x20#8] →
      lookup op = none ∧ decode (op :: rest) = .unknownOpcode op) ∧
  ((List.range 256).filter (fun n => (lookup (BitVec.ofNat 8 n)).isNone)).length = 247

/-- spec/30_encoding.md R75: the eight LDA opcodes have the pattern 101m mm01, with these mode bits (PRESUMED, general
knowledge, log entry 4). -/
def Obligations.LdaOpcodePattern : Prop :=
  ∀ (b : Byte) (w : Word),
    (Instr.ldaIndX b).opcode = 0b101_000_01 ∧ (Instr.ldaZp b).opcode = 0b101_001_01 ∧
    (Instr.ldaImm b).opcode = 0b101_010_01 ∧ (Instr.ldaAbs w).opcode = 0b101_011_01 ∧
    (Instr.ldaIndY b).opcode = 0b101_100_01 ∧ (Instr.ldaZpX b).opcode = 0b101_101_01 ∧
    (Instr.ldaAbsY w).opcode = 0b101_110_01 ∧ (Instr.ldaAbsX w).opcode = 0b101_111_01

/-- spec/30_encoding.md R71, R73: words written out from the table decode to the instructions they stand for (all opcode
values but 0xA9 PRESUMED, log entry 4). -/
def Obligations.SampleWordsDecode : Prop :=
  decode [0b10101001, 0x84] = .instr (.ldaImm 0x84) [] ∧
  decode [0b10110101, 0x80, 0x55] = .instr (.ldaZpX 0x80) [0x55] ∧
  decode [0b10111001, 0x02, 0x44] = .instr (.ldaAbsY 0x4402) [] ∧
  decode [0b10110001, 0x20] = .instr (.ldaIndY 0x20) [] ∧
  decode [0b00100000, 0x00, 0x90] = .instr (.jsr 0x9000) [] ∧
  decode [0x00, 0x00, 0x00] = .unknownOpcode 0x00

/-! ### The step -/

/-- spec/41_dispatch_loop.md R133: at a boundary with budget left, a step is `exec` of the instruction the bytes at PC
decode to, at that very state; `exec` runs it whole, its opcode fetch included. -/
def Obligations.StepRunsDecodedInstruction : Prop :=
  ∀ (s : State) (requested cycles : Int) (i : Instr) (rest : List Byte), s.AtBoundary requested cycles →
    decode s.window = .instr i rest → step s = exec i s

/-- spec/41_dispatch_loop.md R133, spec/30_encoding.md R71: where memory holds an instruction's encoding from PC on, mod
2^16, a step at a boundary runs that instruction, whatever bytes follow it. -/
def Obligations.StepRunsEncodedInstruction : Prop :=
  ∀ (s : State) (requested cycles : Int) (i : Instr), s.AtBoundary requested cycles →
    (∀ k (h : k < (encode i).length), s.mem.read (s.pc + BitVec.ofNat 16 k) = (encode i)[k]) → step s = exec i s

/-- spec/60_exceptions.md R180 to R182: an opcode outside the map, fetched at a boundary, is recorded with its address;
PC has passed it, the call ends with the fault, and nothing else has changed. (A claim about the hardware may rest on
the record alone: R182, U3. The rest of the state is the spec's decision D10; that this is a next state whose own step
then stops is the model's choice, log entry 7.) -/
def Obligations.UnknownOpcodeRecordsFault : Prop :=
  ∀ (s : State) (requested cycles : Int), s.AtBoundary requested cycles → lookup (s.mem.read s.pc) = none →
    step s = .next { s with
      pc := s.pc + 1
      fault := some ⟨s.mem.read s.pc, s.pc⟩
      call := .returned (.fault (s.mem.read s.pc) s.pc) }

/-- spec/60_exceptions.md R183, R185: a faulted core stops every step with its recorded fault; between calls an
`execute` reports the fault again and changes nothing, whatever is requested; and no host operation but reset clears
the record. (The spec's decision D10, log entry 7; `call` holding the result is the model's, log entry 8.) -/
def Obligations.FaultedCoreStaysFaulted : Prop :=
  ∀ (cfg : Config) (s : State) (r : FaultRecord), s.fault = some r →
    step s = .fault (.unknownOpcode r.op r.pc) ∧
    (s.Idle → ∀ requested, s.execute cfg requested = .next { s with call := .returned (.fault r.op r.pc) }) ∧
    (∀ op t, s.host cfg op = .next t → op ≠ .reset → (∀ v, op ≠ .resetTo v) → t.fault = some r)

/-- spec/41_dispatch_loop.md R135: the call returns `Used(requested - cycles)` at the first boundary without budget, and
a request of 0 or less returns `Used(0)` with nothing fetched, written or changed. (`call` holds the value returned to the
host.) -/
def Obligations.ExhaustedBudgetReturnsCyclesUsed : Prop :=
  ∀ (s : State) (requested cycles : Int), s.fault = none →
    (s.call = .running requested cycles → cycles ≤ 0 →
      step s = .next { s with call := .returned (.used (requested - cycles)) }) ∧
    (s.Idle → requested ≤ 0 → s.execute config requested = .next { s with call := .returned (.used 0) })

/-- spec/60_exceptions.md R197: between calls the core is idle and keeps all its state. That the step then answers the
same state is the model's choice (log entry 8). -/
def Obligations.IdleStepKeepsAllState : Prop :=
  ∀ s : State, s.fault = none → s.Idle → step s = .next s

/-- spec/41_dispatch_loop.md R131: at a boundary, the step is one pass of the loop as the spec writes it, where opcode and
operand bytes are fetched one by one through `Fetch8`, the resolver reading its own operand. -/
def Obligations.StepIsFetchLoopIteration : Prop :=
  ∀ (s : State) (requested cycles : Int), s.AtBoundary requested cycles →
    step s = .next (Bus.iteration config ⟨s, []⟩).st

/-- spec/70_reset_and_hazards.md R223, for every configuration: the bus cycles of the loop pass that runs an instruction
are the table's row, and an unknown opcode takes its own fetch only. (The place of an extra cycle is the spec's choice,
D7, log entry 14.) -/
def Obligations.BusCyclesFollowAccessTable : Prop :=
  ∀ (cfg : Config) (s : State),
    (∀ i, s.fetchInstr = some i → (Bus.iteration cfg ⟨s, []⟩).log = accessTable cfg s i ∧
      (Bus.iteration cfg ⟨s, []⟩).st.call = s.call.charge (cycleCost cfg s i)) ∧
    (s.fetchInstr = none → (Bus.iteration cfg ⟨s, []⟩).log = [.fetch s.pc])

/-- spec/20_memory.md R49, R56, R59: an instruction depends on no byte it does not access, and touches none. Change any
byte outside the accesses of the loop pass, and the next state is the same but for that byte. The memory is canonical,
which every reachable state's is. (That memory is plain storage is the spec's decision D8, log entry 13; that the core
alone accesses it during a call is D9, log entry 19.) -/
def Obligations.OnlyAccessedBytesMatter : Prop :=
  ∀ (s : State) (requested cycles : Int) (addr : Word) (v : Byte), s.mem.wf → s.AtBoundary requested cycles →
    (∀ e ∈ (Bus.iteration config ⟨s, []⟩).log, e.addr? ≠ some addr) →
    ∃ t, step s = .next t ∧ t.mem.read addr = s.mem.read addr ∧
      step { s with mem := s.mem.write addr v } = .next { t with mem := t.mem.write addr v }

/-- The model's promise about `withFetchWord` (log entry 9): the very next step runs the instruction the decoder reads
from the table's word. -/
def Obligations.FetchWordRunsNext : Prop :=
  ∀ (s : State) (nbits w : Nat) (i : Instr), decodeTableWord nbits w = some i →
    step (s.withFetchWord nbits w) = exec i (s.withFetchWord nbits w)

/-! ### Whole calls -/

/-- spec/41_dispatch_loop.md R139: every call ends. From any state between calls, whatever is requested, `execute`
returns, with `Used(n)` and no fault, or with the fault it recorded. -/
def Obligations.ExecuteAlwaysReturns : Prop :=
  ∀ (s : State) (requested : Int), s.Idle → ∃ t, s.execute config requested = .next t ∧
    ((∃ n, t.call = .returned (.used n) ∧ t.fault = none) ∨
      (∃ op pc, t.call = .returned (.fault op pc) ∧ t.fault = some ⟨op, pc⟩))

/-- spec/41_dispatch_loop.md R134, R136: a positive request that returns `Used(n)` has used at least the request, and at
most 5 cycles more. (R136 is the spec's derivation.) -/
def Obligations.OvershootAtMostFive : Prop :=
  ∀ (s t : State) (requested n : Int), s.Idle → s.fault = none → 0 < requested →
    s.execute config requested = .next t → t.call = .returned (.used n) → requested ≤ n ∧ n ≤ requested + 5

/-- spec/60_exceptions.md R196, the spec's derivation: `execute(1)` runs exactly one instruction and returns its cost. -/
def Obligations.ExecuteOneRunsOneInstruction : Prop :=
  ∀ (s : State) (i : Instr), s.Idle → s.fault = none → s.fetchInstr = some i →
    ∃ t, exec i { s with call := .running 1 1 } = .next t ∧
      s.execute config 1 = .next { t with call := .returned (.used (cycleCost config s i)) }

/-! ### Invariants -/

/-- The invariant (memory canonical; fault, call and budget consistent: spec/10_state.md R32, R33, spec/41_dispatch_loop.md
R134 to R136, spec/60_exceptions.md R185) holds after reset. -/
def Obligations.ResetMeetsInvariant : Prop := State.reset.Inv

/-- Every step keeps the invariant, from every state that meets it. -/
def Obligations.StepKeepsInvariant : Prop :=
  ∀ s t : State, s.Inv → step s = .next t → t.Inv

/-- Every host operation keeps the invariant, from every state that meets it, under every configuration. -/
def Obligations.HostOperationsKeepInvariant : Prop :=
  ∀ (cfg : Config) (s t : State) (op : HostOp), s.Inv → s.host cfg op = .next t → t.Inv

/-- Under every configuration, every state that host operations and steps bring the machine to from reset meets the
invariant. -/
def Obligations.ReachableStatesMeetInvariant : Prop := ∀ (cfg : Config) (s : State), Reachable cfg s → s.Inv

/-- spec/10_state.md R22, R23, R30: no run of the core, of any length from any state, changes X, Y, C, I, D, B or V. -/
def Obligations.RunsNeverWriteInertState : Prop :=
  ∀ (k : Nat) (s t : State), Host.Core.run Sys2Proof.core k s = .next t → s.SameInert t

/-! ### Every configuration -/

/-- spec/00_scope.md R9, spec/41_dispatch_loop.md R131: the step of a machine of any configuration is, at a boundary, one
pass of the loop under that configuration; under the defaults, from every state, it is `step`. (The choices R9 names are
the spec's decisions D2 and D3, log entries 2 and 3.) -/
def Obligations.ConfiguredStepIsFetchLoopIteration : Prop :=
  (∀ (cfg : Config) (s : State) (requested cycles : Int), s.AtBoundary requested cycles →
    stepIn cfg s = .next (Bus.iteration cfg ⟨s, []⟩).st) ∧
  ∀ s : State, stepIn config s = step s

/-- spec/41_dispatch_loop.md R131, R134, R138: under every configuration, a call is its first loop pass under that
configuration, and then a call for what its cost leaves of the request, the cycles used added up; an unknown opcode ends
it at once. (The parameters are the spec's decisions D2, D3 and D6, log entries 2, 3 and 5; which requests a counter
serves is the model's part of entry 5.) -/
def Obligations.ExecuteIsPassThenRest : Prop :=
  ∀ (cfg : Config) (s : State) (requested : Int), s.Idle → s.fault = none → 0 < requested →
    requestFits cfg requested = true →
    let pass := (Bus.iteration cfg ⟨{ s with call := .running requested requested }, []⟩).st
    (∀ i, s.fetchInstr = some i → ∃ u,
      State.execute cfg { pass with call := .idle } (requested - cycleCost cfg s i) = .next u ∧
      s.execute cfg requested = .next { u with
        call := match u.call with
          | .returned (.used n) => .returned (.used (n + cycleCost cfg s i))
          | c => c }) ∧
    (s.fetchInstr = none → s.execute cfg requested = .next pass)
end

