-- ==== Sys2Proof/Laws/Memory.lean ====
section
/-! SUPPORT. The laws of the AddressSpace (spec/20_memory.md R40 to R43, R56): reading after a write, and that every
operation keeps the canonical form. -/

namespace Sys2Proof.Machine

theorem Memory.find_insert (m : Memory) (a b : Nat) (v : Byte) (h : ∀ p ∈ m, p.1 ≠ a) :
    Memory.find (Memory.insert m a v) b = if b = a then v else Memory.find m b := by
  induction m with
  | nil => simp [Memory.insert, Memory.find, eq_comm]
  | cons p rest ih =>
    obtain ⟨k, w⟩ := p
    have hk : k ≠ a := h (k, w) (by simp)
    have hr := ih (fun p hp => h p (by simp [hp]))
    by_cases hb : b = a
    · subst hb
      by_cases hlt : b < k <;> simp [Memory.insert, Memory.find, hlt, hk, hr]
    · by_cases hlt : a < k <;> simp [Memory.insert, Memory.find, hlt, hb, hr, Ne.symm hb]

theorem Memory.find_erase (m : Memory) (a b : Nat) :
    Memory.find (m.filter (fun p => p.1 != a)) b = if b = a then Memory.unlisted else Memory.find m b := by
  induction m with
  | nil => simp [Memory.find]
  | cons p rest ih =>
    obtain ⟨k, w⟩ := p
    by_cases hk : k = a
    · subst hk
      by_cases hb : b = k
      · simp [hb] at ih ⊢; exact ih
      · simp [ih, hb, Memory.find, Ne.symm hb]
    · by_cases hb : b = a
      · subst hb; simp [Memory.find, hk, ih]
      · simp [Memory.find, hk, ih, hb]

theorem Memory.find_set (m : Memory) (a b : Nat) (v : Byte) :
    Memory.find (Memory.set m a v) b = if b = a then v else Memory.find m b := by
  unfold Memory.set
  split
  · rename_i hv; rw [Memory.find_erase, hv]
  · rw [Memory.find_insert _ _ _ _ (by simp), Memory.find_erase]
    split <;> rfl

/-- Reading after a write: the byte written at its address, every other byte as before. -/
theorem Memory.read_write (m : Memory) (a b : Word) (v : Byte) :
    (m.write a v).read b = if b = a then v else m.read b := by
  simp [Memory.read, Memory.write, Memory.find_set, BitVec.toNat_inj]

@[simp] theorem Memory.read_write_same (m : Memory) (a : Word) (v : Byte) : (m.write a v).read a = v := by
  simp [Memory.read_write]

theorem Memory.read_write_other (m : Memory) (a b : Word) (v : Byte) (h : b ≠ a) :
    (m.write a v).read b = m.read b := by
  simp [Memory.read_write, h]

@[simp] theorem Memory.read_initialize (a : Word) : Memory.initialize.read a = 0x00 := rfl

@[simp] theorem Memory.initialize_wf : Memory.initialize.wf := ⟨List.Pairwise.nil, by simp [Memory.initialize]⟩

theorem Memory.mem_insert (m : Memory) (a : Nat) (v : Byte) (p : Host.Cell) :
    p ∈ Memory.insert m a v ↔ p = (a, v) ∨ p ∈ m := by
  induction m with
  | nil => simp [Memory.insert]
  | cons q rest ih =>
    simp only [Memory.insert]
    split
    · simp
    · simp only [List.mem_cons, ih]; tauto

theorem Memory.insert_pairwise (m : Memory) (a : Nat) (v : Byte) (h : m.Pairwise (fun p q => p.1 < q.1))
    (ha : ∀ p ∈ m, p.1 ≠ a) : (Memory.insert m a v).Pairwise (fun p q => p.1 < q.1) := by
  induction m with
  | nil => simp [Memory.insert]
  | cons p rest ih =>
    obtain ⟨k, w⟩ := p
    obtain ⟨hk, hrest⟩ := List.pairwise_cons.mp h
    have hka : k ≠ a := ha (k, w) (by simp)
    simp only [Memory.insert]
    split
    · rename_i hlt
      refine List.pairwise_cons.mpr ⟨?_, h⟩
      intro q hq
      rcases List.mem_cons.mp hq with rfl | hq
      · exact hlt
      · exact Nat.lt_trans hlt (hk q hq)
    · rename_i hge
      refine List.pairwise_cons.mpr ⟨?_, ih hrest (fun q hq => ha q (by simp [hq]))⟩
      intro q hq
      rcases (Memory.mem_insert rest a v q).mp hq with rfl | hq
      · show k < a; omega
      · exact hk q hq

/-- A write keeps the canonical form. -/
theorem Memory.write_wf (m : Memory) (a : Word) (v : Byte) (h : m.wf) : (m.write a v).wf := by
  obtain ⟨hp, hc⟩ := h
  have hf : (m.filter (fun p => p.1 != a.toNat)).Pairwise (fun p q => p.1 < q.1) := hp.filter _
  unfold Memory.write Memory.set
  split
  · exact ⟨hf, fun p hm => hc p (List.mem_filter.mp hm).1⟩
  · rename_i hv
    refine ⟨Memory.insert_pairwise _ _ _ hf (by simp), fun p hm => ?_⟩
    rcases (Memory.mem_insert _ _ _ p).mp hm with rfl | hm
    · exact ⟨a.isLt, hv⟩
    · exact hc p (List.mem_filter.mp hm).1

/-- Writing consecutive bytes keeps the canonical form. -/
theorem Memory.writeAll_wf (bs : List Byte) : ∀ (m : Memory) (a : Word), m.wf → (m.writeAll a bs).wf := by
  induction bs with
  | nil => exact fun m a h => h
  | cons b bs ih => exact fun m a h => ih _ _ (Memory.write_wf m a b h)

/-- Where a canonical memory lists no address at or below `a`, it reads as unlisted there. -/
theorem Memory.find_of_forall_gt (m : Memory) (a : Nat) (h : ∀ p ∈ m, a < p.1) :
    Memory.find m a = Memory.unlisted := by
  induction m with
  | nil => rfl
  | cons p rest ih =>
    obtain ⟨k, w⟩ := p
    have hk : a < k := h (k, w) (by simp)
    simp [Memory.find, Nat.ne_of_gt hk, ih (fun q hq => h q (by simp [hq]))]

end Sys2Proof.Machine
end

