-- ==== Sys2Proof/Laws/State.lean ====
section
/-! SUPPORT. One lemma per field of State per named update, each true by unfolding, so that no later proof unfolds a
record update; the same for the budget and the flags. -/

namespace Sys2Proof.Machine

/-! ### The budget -/

@[simp] theorem Call.charge_idle (n : Nat) : Call.idle.charge n = .idle := rfl
@[simp] theorem Call.charge_running (n : Nat) (requested cycles : Int) :
    (Call.running requested cycles).charge n = .running requested (cycles - n) := rfl
@[simp] theorem Call.charge_returned (n : Nat) (r : CallResult) : (Call.returned r).charge n = .returned r := rfl

/-- Charges add up (R132). -/
@[simp] theorem Call.charge_charge (c : Call) (m n : Nat) : (c.charge m).charge n = c.charge (m + n) := by
  cases c <;> simp [Call.charge]; omega

@[simp] theorem Call.charge_zero (c : Call) : c.charge 0 = c := by cases c <;> simp [Call.charge]

/-- Only a running call is charged. -/
theorem Call.charge_eq_running (c : Call) (n : Nat) (requested cycles : Int) :
    c.charge n = .running requested cycles ↔ c = .running requested (cycles + n) := by
  cases c <;> simp [Call.charge]; omega

theorem Call.charge_eq_returned (c : Call) (n : Nat) (r : CallResult) :
    c.charge n = .returned r ↔ c = .returned r := by
  cases c <;> simp [Call.charge]

/-! ### The flags -/

@[simp] theorem Flags.setZN_z (f : Flags) (v : Byte) : (f.setZN v).z = (v == 0x00) := rfl
@[simp] theorem Flags.setZN_n (f : Flags) (v : Byte) : (f.setZN v).n = v.getLsbD 7 := rfl
@[simp] theorem Flags.setZN_c (f : Flags) (v : Byte) : (f.setZN v).c = f.c := rfl
@[simp] theorem Flags.setZN_i (f : Flags) (v : Byte) : (f.setZN v).i = f.i := rfl
@[simp] theorem Flags.setZN_d (f : Flags) (v : Byte) : (f.setZN v).d = f.d := rfl
@[simp] theorem Flags.setZN_b (f : Flags) (v : Byte) : (f.setZN v).b = f.b := rfl
@[simp] theorem Flags.setZN_v (f : Flags) (v : Byte) : (f.setZN v).v = f.v := rfl

/-! ### tick -/

@[simp] theorem State.tick_pc (s : State) (n : Nat) : (s.tick n).pc = s.pc := rfl
@[simp] theorem State.tick_sp (s : State) (n : Nat) : (s.tick n).sp = s.sp := rfl
@[simp] theorem State.tick_a (s : State) (n : Nat) : (s.tick n).a = s.a := rfl
@[simp] theorem State.tick_x (s : State) (n : Nat) : (s.tick n).x = s.x := rfl
@[simp] theorem State.tick_y (s : State) (n : Nat) : (s.tick n).y = s.y := rfl
@[simp] theorem State.tick_flags (s : State) (n : Nat) : (s.tick n).flags = s.flags := rfl
@[simp] theorem State.tick_fault (s : State) (n : Nat) : (s.tick n).fault = s.fault := rfl
@[simp] theorem State.tick_call (s : State) (n : Nat) : (s.tick n).call = s.call.charge n := rfl
@[simp] theorem State.tick_mem (s : State) (n : Nat) : (s.tick n).mem = s.mem := rfl

/-! ### fetch8 -/

@[simp] theorem State.fetch8_pc (s : State) : s.fetch8.2.pc = s.pc + 1 := rfl
@[simp] theorem State.fetch8_sp (s : State) : s.fetch8.2.sp = s.sp := rfl
@[simp] theorem State.fetch8_a (s : State) : s.fetch8.2.a = s.a := rfl
@[simp] theorem State.fetch8_x (s : State) : s.fetch8.2.x = s.x := rfl
@[simp] theorem State.fetch8_y (s : State) : s.fetch8.2.y = s.y := rfl
@[simp] theorem State.fetch8_flags (s : State) : s.fetch8.2.flags = s.flags := rfl
@[simp] theorem State.fetch8_fault (s : State) : s.fetch8.2.fault = s.fault := rfl
@[simp] theorem State.fetch8_call (s : State) : s.fetch8.2.call = s.call.charge 1 := rfl
@[simp] theorem State.fetch8_mem (s : State) : s.fetch8.2.mem = s.mem := rfl

/-! ### read8 -/

@[simp] theorem State.read8_pc (s : State) (a : Word) : (s.read8 a).2.pc = s.pc := rfl
@[simp] theorem State.read8_sp (s : State) (a : Word) : (s.read8 a).2.sp = s.sp := rfl
@[simp] theorem State.read8_a (s : State) (a : Word) : (s.read8 a).2.a = s.a := rfl
@[simp] theorem State.read8_x (s : State) (a : Word) : (s.read8 a).2.x = s.x := rfl
@[simp] theorem State.read8_y (s : State) (a : Word) : (s.read8 a).2.y = s.y := rfl
@[simp] theorem State.read8_flags (s : State) (a : Word) : (s.read8 a).2.flags = s.flags := rfl
@[simp] theorem State.read8_fault (s : State) (a : Word) : (s.read8 a).2.fault = s.fault := rfl
@[simp] theorem State.read8_call (s : State) (a : Word) : (s.read8 a).2.call = s.call.charge 1 := rfl
@[simp] theorem State.read8_mem (s : State) (a : Word) : (s.read8 a).2.mem = s.mem := rfl

/-! ### setZN -/

@[simp] theorem State.setZN_pc (s : State) (v : Byte) : (s.setZN v).pc = s.pc := rfl
@[simp] theorem State.setZN_sp (s : State) (v : Byte) : (s.setZN v).sp = s.sp := rfl
@[simp] theorem State.setZN_a (s : State) (v : Byte) : (s.setZN v).a = s.a := rfl
@[simp] theorem State.setZN_x (s : State) (v : Byte) : (s.setZN v).x = s.x := rfl
@[simp] theorem State.setZN_y (s : State) (v : Byte) : (s.setZN v).y = s.y := rfl
@[simp] theorem State.setZN_flags (s : State) (v : Byte) : (s.setZN v).flags = s.flags.setZN v := rfl
@[simp] theorem State.setZN_fault (s : State) (v : Byte) : (s.setZN v).fault = s.fault := rfl
@[simp] theorem State.setZN_call (s : State) (v : Byte) : (s.setZN v).call = s.call := rfl
@[simp] theorem State.setZN_mem (s : State) (v : Byte) : (s.setZN v).mem = s.mem := rfl

/-! ### loadA -/

@[simp] theorem State.loadA_pc (s : State) (v : Byte) : (s.loadA v).pc = s.pc := rfl
@[simp] theorem State.loadA_sp (s : State) (v : Byte) : (s.loadA v).sp = s.sp := rfl
@[simp] theorem State.loadA_a (s : State) (v : Byte) : (s.loadA v).a = v := rfl
@[simp] theorem State.loadA_x (s : State) (v : Byte) : (s.loadA v).x = s.x := rfl
@[simp] theorem State.loadA_y (s : State) (v : Byte) : (s.loadA v).y = s.y := rfl
@[simp] theorem State.loadA_flags (s : State) (v : Byte) : (s.loadA v).flags = s.flags.setZN v := rfl
@[simp] theorem State.loadA_fault (s : State) (v : Byte) : (s.loadA v).fault = s.fault := rfl
@[simp] theorem State.loadA_call (s : State) (v : Byte) : (s.loadA v).call = s.call := rfl
@[simp] theorem State.loadA_mem (s : State) (v : Byte) : (s.loadA v).mem = s.mem := rfl

/-! ### raiseUnknownOpcode -/

@[simp] theorem State.raiseUnknownOpcode_pc (s : State) (op : Byte) (pc0 : Word) : (s.raiseUnknownOpcode op pc0).pc = s.pc := rfl
@[simp] theorem State.raiseUnknownOpcode_sp (s : State) (op : Byte) (pc0 : Word) : (s.raiseUnknownOpcode op pc0).sp = s.sp := rfl
@[simp] theorem State.raiseUnknownOpcode_a (s : State) (op : Byte) (pc0 : Word) : (s.raiseUnknownOpcode op pc0).a = s.a := rfl
@[simp] theorem State.raiseUnknownOpcode_x (s : State) (op : Byte) (pc0 : Word) : (s.raiseUnknownOpcode op pc0).x = s.x := rfl
@[simp] theorem State.raiseUnknownOpcode_y (s : State) (op : Byte) (pc0 : Word) : (s.raiseUnknownOpcode op pc0).y = s.y := rfl
@[simp] theorem State.raiseUnknownOpcode_flags (s : State) (op : Byte) (pc0 : Word) : (s.raiseUnknownOpcode op pc0).flags = s.flags := rfl
@[simp] theorem State.raiseUnknownOpcode_fault (s : State) (op : Byte) (pc0 : Word) : (s.raiseUnknownOpcode op pc0).fault = some ⟨op, pc0⟩ := rfl
@[simp] theorem State.raiseUnknownOpcode_call (s : State) (op : Byte) (pc0 : Word) : (s.raiseUnknownOpcode op pc0).call = .returned (.fault op pc0) := rfl
@[simp] theorem State.raiseUnknownOpcode_mem (s : State) (op : Byte) (pc0 : Word) : (s.raiseUnknownOpcode op pc0).mem = s.mem := rfl

/-! ### write16 -/

@[simp] theorem State.write16_pc (s : State) (a v : Word) : (s.write16 a v).pc = s.pc := rfl
@[simp] theorem State.write16_sp (s : State) (a v : Word) : (s.write16 a v).sp = s.sp := rfl
@[simp] theorem State.write16_a (s : State) (a v : Word) : (s.write16 a v).a = s.a := rfl
@[simp] theorem State.write16_x (s : State) (a v : Word) : (s.write16 a v).x = s.x := rfl
@[simp] theorem State.write16_y (s : State) (a v : Word) : (s.write16 a v).y = s.y := rfl
@[simp] theorem State.write16_flags (s : State) (a v : Word) : (s.write16 a v).flags = s.flags := rfl
@[simp] theorem State.write16_fault (s : State) (a v : Word) : (s.write16 a v).fault = s.fault := rfl
@[simp] theorem State.write16_call (s : State) (a v : Word) : (s.write16 a v).call = s.call.charge 2 := rfl
@[simp] theorem State.write16_mem (s : State) (a v : Word) : (s.write16 a v).mem = (s.mem.write a (loByte v)).write (a + 1) (hiByte v) := rfl

/-! ### reset and start -/

@[simp] theorem State.resetTo_sp (s : State) (cfg : Config) (vector : Word) : (s.resetTo cfg vector).sp = 0x0000 := by
  unfold State.resetTo; cases cfg.resetPcMode <;> rfl
@[simp] theorem State.resetTo_a (s : State) (cfg : Config) (vector : Word) : (s.resetTo cfg vector).a = 0x00 := by
  unfold State.resetTo; cases cfg.resetPcMode <;> rfl
@[simp] theorem State.resetTo_x (s : State) (cfg : Config) (vector : Word) : (s.resetTo cfg vector).x = 0x00 := by
  unfold State.resetTo; cases cfg.resetPcMode <;> rfl
@[simp] theorem State.resetTo_y (s : State) (cfg : Config) (vector : Word) : (s.resetTo cfg vector).y = 0x00 := by
  unfold State.resetTo; cases cfg.resetPcMode <;> rfl
@[simp] theorem State.resetTo_flags (s : State) (cfg : Config) (vector : Word) : (s.resetTo cfg vector).flags = Flags.clear := by
  unfold State.resetTo; cases cfg.resetPcMode <;> rfl
@[simp] theorem State.resetTo_fault (s : State) (cfg : Config) (vector : Word) : (s.resetTo cfg vector).fault = none := by
  unfold State.resetTo; cases cfg.resetPcMode <;> rfl
@[simp] theorem State.resetTo_call (s : State) (cfg : Config) (vector : Word) : (s.resetTo cfg vector).call = .idle := by
  unfold State.resetTo; cases cfg.resetPcMode <;> rfl
@[simp] theorem State.resetTo_mem (s : State) (cfg : Config) (vector : Word) : (s.resetTo cfg vector).mem = Memory.initialize := by
  unfold State.resetTo; cases cfg.resetPcMode <;> rfl

end Sys2Proof.Machine
end

