-- ==== Sys2Proof/Laws/Ops.lean ====
section
/-! SUPPORT. One lemma per shared operation, saying at once everything it does: the value it returns and the state it
leaves, as one update of the state it starts from. Later proofs cite these and unfold no operation. -/

namespace Sys2Proof.Machine

/-! ### Words and bytes -/

theorem toNat_joinLE (lo hi : Byte) : (joinLE lo hi).toNat = hi.toNat * 256 + lo.toNat := by
  show (hi ++ lo : BitVec (8 + 8)).toNat = _
  rw [BitVec.toNat_append, ← Nat.shiftLeft_add_eq_or_of_lt lo.isLt, Nat.shiftLeft_eq]

theorem toNat_loByte (w : Word) : (loByte w).toNat = w.toNat % 256 := by simp [loByte]

theorem toNat_hiByte (w : Word) : (hiByte w).toNat = w.toNat / 256 := by
  have := w.isLt
  simp [hiByte, Nat.shiftRight_eq_div_pow]; omega

@[simp] theorem loByte_joinLE (lo hi : Byte) : loByte (joinLE lo hi) = lo := by
  apply BitVec.eq_of_toNat_eq
  rw [toNat_loByte, toNat_joinLE]
  have := lo.isLt; omega

@[simp] theorem hiByte_joinLE (lo hi : Byte) : hiByte (joinLE lo hi) = hi := by
  apply BitVec.eq_of_toNat_eq
  rw [toNat_hiByte, toNat_joinLE]
  have := lo.isLt; omega

@[simp] theorem joinLE_loByte_hiByte (w : Word) : joinLE (loByte w) (hiByte w) = w := by
  apply BitVec.eq_of_toNat_eq
  rw [toNat_joinLE, toNat_loByte, toNat_hiByte]; omega

theorem toNat_zext16 (b : Byte) : (zext16 b).toNat = b.toNat := by
  have := b.isLt
  simp [zext16]; omega

/-- Consecutive addresses differ, at the top of memory too. -/
@[simp] theorem word_succ_ne (a : Word) : a + 1#16 ≠ a := by
  intro h
  have hn := congrArg BitVec.toNat h
  have := a.isLt
  rw [BitVec.toNat_add] at hn
  simp at hn
  omega

@[simp] theorem word_add_one_add_one (a : Word) : a + 1#16 + 1#16 = a + 2#16 := by rw [BitVec.add_assoc]; rfl

@[simp] theorem word_add_one_add_two (a : Word) : a + 1#16 + 2#16 = a + 3#16 := by rw [BitVec.add_assoc]; rfl

@[simp] theorem word_add_two_add_one (a : Word) : a + 2#16 + 1#16 = a + 3#16 := by rw [BitVec.add_assoc]; rfl

@[simp] theorem word_add_three_sub_one (a : Word) : a + 3#16 - 1#16 = a + 2#16 := by
  rw [BitVec.sub_eq_add_neg, BitVec.add_assoc]; rfl

/-! ### The access primitives -/

theorem State.tick_eq (s : State) (n : Nat) : s.tick n = { s with call := s.call.charge n } := rfl

theorem State.fetch8_eq (s : State) :
    s.fetch8 = (s.mem.read s.pc, { s with pc := s.pc + 1, call := s.call.charge 1 }) := rfl

theorem State.fetch16_eq (s : State) :
    s.fetch16 = (joinLE (s.mem.read s.pc) (s.mem.read (s.pc + 1)),
      { s with pc := s.pc + 2, call := s.call.charge 2 }) := by
  simp [State.fetch16, State.fetch8_eq]

theorem State.read8_eq (s : State) (a : Word) :
    s.read8 a = (s.mem.read a, { s with call := s.call.charge 1 }) := rfl

theorem State.read16_eq (s : State) (a : Word) :
    s.read16 a = (joinLE (s.mem.read a) (s.mem.read (a + 1)), { s with call := s.call.charge 2 }) := by
  simp [State.read16, State.read8_eq, inc16]

theorem State.write16_eq (s : State) (a v : Word) :
    s.write16 a v = { s with
      mem := (s.mem.write a (loByte v)).write (a + 1) (hiByte v), call := s.call.charge 2 } := rfl

/-- What every byte reads as after a word write (R48, R52). -/
theorem State.write16_read (s : State) (a v b : Word) :
    (s.write16 a v).mem.read b = if b = a + 1 then hiByte v else if b = a then loByte v else s.mem.read b := by
  simp [State.write16_eq, Memory.read_write]

theorem State.write16_wf (s : State) (a v : Word) (h : s.mem.wf) : (s.write16 a v).mem.wf :=
  Memory.write_wf _ _ _ (Memory.write_wf _ _ _ h)

/-! ### Loads -/

theorem State.loadA_eq (s : State) (v : Byte) : s.loadA v = { s with a := v, flags := s.flags.setZN v } := rfl

theorem loadValue_eq (v : Byte) (s : State) : loadValue (v, s) = { s with a := v, flags := s.flags.setZN v } := rfl

theorem loadFrom_eq (ea : Word) (s : State) :
    loadFrom (ea, s) = { s with
      a := s.mem.read ea, flags := s.flags.setZN (s.mem.read ea), call := s.call.charge 1 } := rfl

theorem State.opcodeFetched_eq (s : State) :
    s.opcodeFetched = { s with pc := s.pc + 1, call := s.call.charge 1 } := rfl

/-! ### JSR -/

theorem State.call16_eq (target : Word) (s : State) :
    s.call16 target = { s with
      pc := target
      sp := s.sp + 2
      mem := (s.mem.write (stackAddr s.sp) (loByte (s.pc - 1))).write (stackAddr s.sp + 1) (hiByte (s.pc - 1))
      call := s.call.charge 3 } := by
  simp [State.call16, State.tick_eq, State.write16_eq, dec16]

/-! ### Reset -/

/-- Reset forgets the whole old state (R211); under `deref` the vector word is read after the zero fill, so PC is 0
(R212). -/
theorem State.resetTo_eq (cfg : Config) (s : State) (vector : Word) :
    s.resetTo cfg vector = { State.reset with
      pc := match cfg.resetPcMode with
        | .literal => vector
        | .deref => 0x0000 } := by
  unfold State.resetTo
  have hz : joinLE 0#8 0#8 = 0#16 := by decide
  cases cfg.resetPcMode <;> simp [State.reset, Memory.initialize, Memory.read, Memory.find, Memory.unlisted, hz]

end Sys2Proof.Machine
end

