-- ==== Sys2Proof/Laws/Operands.lean ====
section
/-! SUPPORT. One lemma per resolver (spec/40_addressing_modes.md R102 to R109): the value or address it returns and the
state it leaves. -/

namespace Sys2Proof.Machine

theorem State.tickPageCross_eq (cfg : Config) (base : Word) (idx : Byte) (s : State) :
    s.tickPageCross cfg base idx =
      { s with call := s.call.charge (pageCrossCost cfg.pageCrossRule base idx) } := by
  unfold State.tickPageCross pageCrossCost
  split <;> simp [State.tick_eq]

theorem State.readPtr_eq (cfg : Config) (zp : Byte) (s : State) :
    s.readPtr cfg zp = (s.mem.pointer cfg.zpPtrHi zp, { s with call := s.call.charge 2 }) := by
  unfold State.readPtr Memory.pointer ptrHiAddr
  cases cfg.zpPtrHi <;> simp [State.read16_eq, State.read8_eq, add8]

theorem resolveImm_eq (b : Byte) (s : State) :
    resolveImm b s = (b, { s with pc := s.pc + 1, call := s.call.charge 1 }) := rfl

theorem resolveZp_eq (b : Byte) (s : State) :
    resolveZp b s = (zext16 b, { s with pc := s.pc + 1, call := s.call.charge 1 }) := rfl

theorem resolveZpX_eq (b : Byte) (s : State) :
    resolveZpX b s = (zext16 (b + s.x), { s with pc := s.pc + 1, call := s.call.charge 2 }) := by
  simp [resolveZpX, State.tick_eq, State.fetch8_eq, add8]

theorem resolveAbs_eq (w : Word) (s : State) :
    resolveAbs w s = (w, { s with pc := s.pc + 2, call := s.call.charge 2 }) := by
  simp [resolveAbs, State.fetch16_eq]

theorem resolveAbsX_eq (cfg : Config) (w : Word) (s : State) :
    resolveAbsX cfg w s = (w + zext16 s.x, { s with
      pc := s.pc + 2, call := s.call.charge (2 + pageCrossCost cfg.pageCrossRule w s.x) }) := by
  simp [resolveAbsX, State.fetch16_eq, State.tickPageCross_eq, add16]

theorem resolveAbsY_eq (cfg : Config) (w : Word) (s : State) :
    resolveAbsY cfg w s = (w + zext16 s.y, { s with
      pc := s.pc + 2, call := s.call.charge (2 + pageCrossCost cfg.pageCrossRule w s.y) }) := by
  simp [resolveAbsY, State.fetch16_eq, State.tickPageCross_eq, add16]

theorem resolveIndX_eq (cfg : Config) (b : Byte) (s : State) :
    resolveIndX cfg b s = (s.mem.pointer cfg.zpPtrHi (b + s.x), { s with
      pc := s.pc + 1, call := s.call.charge 4 }) := by
  simp [resolveIndX, State.tick_eq, State.fetch8_eq, State.readPtr_eq, add8]

theorem resolveIndY_eq (cfg : Config) (b : Byte) (s : State) :
    resolveIndY cfg b s = (s.mem.pointer cfg.zpPtrHi b + zext16 s.y, { s with
      pc := s.pc + 1
      call := s.call.charge
        (3 + pageCrossCost cfg.pageCrossRule (s.mem.pointer cfg.zpPtrHi b) s.y) }) := by
  simp [resolveIndY, State.fetch8_eq, State.readPtr_eq, State.tickPageCross_eq, add16]

end Sys2Proof.Machine
end

