-- ==== Sys2Proof/Laws/Configured.lean ====
section
/-! SUPPORT. Machines of any configuration: under `config` they are the fixed interface's machine, and one closed form
of each load that reads a parameter. -/

namespace Sys2Proof.Machine

theorem execIn_config (i : Instr) (s : State) : execIn config i s = exec i s := by cases i <;> rfl

/-- What `execute` runs under the default configuration is the fixed interface's step. -/
theorem stepIn_config (s : State) : stepIn config s = step s := by
  show s.transition (execIn config) = s.transition exec
  rw [show execIn config = exec from funext fun i => funext (execIn_config i)]

theorem loadAbsX_eq (cfg : Config) (w : Word) (s : State) :
    loadAbsX cfg w s = State.loadA (s.mem.read (w + zext16 s.x)) { s with
      pc := s.pc + 3, call := s.call.charge (4 + pageCrossCost cfg.pageCrossRule w s.x) } := by
  simp [loadAbsX, loadFrom_eq, State.loadA_eq, resolveAbsX_eq, State.opcodeFetched_eq]; congr 1; omega

theorem loadAbsY_eq (cfg : Config) (w : Word) (s : State) :
    loadAbsY cfg w s = State.loadA (s.mem.read (w + zext16 s.y)) { s with
      pc := s.pc + 3, call := s.call.charge (4 + pageCrossCost cfg.pageCrossRule w s.y) } := by
  simp [loadAbsY, loadFrom_eq, State.loadA_eq, resolveAbsY_eq, State.opcodeFetched_eq]; congr 1; omega

theorem loadIndX_eq (cfg : Config) (b : Byte) (s : State) :
    loadIndX cfg b s = State.loadA (s.mem.read (s.mem.pointer cfg.zpPtrHi (b + s.x))) { s with
      pc := s.pc + 2, call := s.call.charge 6 } := by
  simp [loadIndX, loadFrom_eq, State.loadA_eq, resolveIndX_eq, State.opcodeFetched_eq]

theorem loadIndY_eq (cfg : Config) (b : Byte) (s : State) :
    loadIndY cfg b s = State.loadA (s.mem.read (s.mem.pointer cfg.zpPtrHi b + zext16 s.y)) { s with
      pc := s.pc + 2
      call := s.call.charge (5 + pageCrossCost cfg.pageCrossRule (s.mem.pointer cfg.zpPtrHi b) s.y) } := by
  simp [loadIndY, loadFrom_eq, State.loadA_eq, resolveIndY_eq, State.opcodeFetched_eq]; congr 1; omega

end Sys2Proof.Machine
end

