-- ==== Sys2Proof/Laws/Decode.lean ====
section
/-! SUPPORT. The decoder and the loop body: decoding opcode by opcode, and one lemma for each kind of state a transition
starts from, whatever runs the instruction (`exec`, or `execIn cfg`). -/

namespace Sys2Proof.Machine

variable (run : Instr → State → Host.Outcome State Fault Refusal)

/-- The opcodes of the map, and no others (spec/30_encoding.md R73). -/
theorem lookup_eq_none_iff (op : Byte) :
    lookup op = none ↔ op ∉ [0xA9#8, 0xA5#8, 0xB5#8, 0xAD#8, 0xBD#8, 0xB9#8, 0xA1#8, 0xB1#8, 0x20#8] := by
  revert op; decide

/-- The row the map holds for an instruction's opcode (R73). -/
theorem lookup_opcode (i : Instr) : lookup i.opcode = some ⟨i.opcode, i.operation, i.format⟩ := by
  cases i <;> rfl

/-- Every row of the map is the row of the operation it names: `lookup` answers nothing else. -/
theorem lookup_cases (op : Byte) (row : OpcodeRow) (h : lookup op = some row) :
    row ∈ opcodeMap ∧ row.opcode = op := by
  have hm := List.mem_of_find?_eq_some h
  have hp := List.find?_some h
  exact ⟨hm, by simpa using hp⟩

theorem decode_cons (op : Byte) (rest : List Byte) :
    decode (op :: rest) = match lookup op with
      | none => .unknownOpcode op
      | some row => decodeOperand row.operation rest := rfl

/-- A window of three bytes is never too short: decoding it fails exactly on an unmapped opcode (R74). -/
theorem State.fetchInstr_eq_none_iff (s : State) : s.fetchInstr = none ↔ lookup (s.mem.read s.pc) = none := by
  simp only [State.fetchInstr, State.window, decode_cons]
  cases h : lookup (s.mem.read s.pc) with
  | none => simp
  | some row =>
    obtain ⟨hm, -⟩ := lookup_cases _ _ h
    simp only [opcodeMap, List.mem_cons, List.not_mem_nil, or_false] at hm
    rcases hm with rfl | rfl | rfl | rfl | rfl | rfl | rfl | rfl | rfl <;> simp [decodeOperand, withByte, withWord]

theorem State.fetchInstr_of_decode (s : State) (i : Instr) (rest : List Byte)
    (h : decode s.window = .instr i rest) : s.fetchInstr = some i := by
  simp [State.fetchInstr, h]

theorem State.runInstruction_of_some (s : State) (i : Instr) (h : s.fetchInstr = some i) :
    s.runInstruction run = run i s := by
  simp [State.runInstruction, h]

/-- Taking the fault: the state after an opcode outside the map (spec/60_exceptions.md R180 to R182). -/
theorem State.runInstruction_of_none (s : State) (h : s.fetchInstr = none) :
    s.runInstruction run = .next { s with
      pc := s.pc + 1
      fault := some ⟨s.mem.read s.pc, s.pc⟩
      call := .returned (.fault (s.mem.read s.pc) s.pc) } := by
  simp [State.runInstruction, h, State.fetch8_eq, State.raiseUnknownOpcode]

/-! ### Everything a transition can do -/

theorem State.transition_faulted (s : State) (r : FaultRecord) (h : s.fault = some r) :
    s.transition run = .fault (.unknownOpcode r.op r.pc) := by
  simp [State.transition, h]

theorem State.transition_budget (s : State) (requested cycles : Int) (hf : s.fault = none)
    (hc : s.call = .running requested cycles) (hpos : 0 < cycles) : s.transition run = s.runInstruction run := by
  simp [State.transition, hf, hc, hpos]

theorem State.transition_exhausted (s : State) (requested cycles : Int) (hf : s.fault = none)
    (hc : s.call = .running requested cycles) (hle : cycles ≤ 0) :
    s.transition run = .next { s with call := .returned (.used (requested - cycles)) } := by
  simp [State.transition, hf, hc, Int.not_lt.mpr hle]

theorem State.transition_waiting (s : State) (hf : s.fault = none)
    (hc : ∀ requested cycles, s.call ≠ .running requested cycles) : s.transition run = .next s := by
  cases h : s.call with
  | running requested cycles => exact absurd h (hc requested cycles)
  | idle => simp [State.transition, hf, h]
  | returned r => simp [State.transition, hf, h]

/-- A transition that answers a next state is a wait, a call's return, an instruction, or the taking of the fault. -/
theorem State.transition_next_cases (s t : State) (h : s.transition run = .next t) :
    s.fault = none ∧
    (((∀ requested cycles, s.call ≠ .running requested cycles) ∧ t = s) ∨
     (∃ requested cycles, s.call = .running requested cycles ∧ cycles ≤ 0 ∧
        t = { s with call := .returned (.used (requested - cycles)) }) ∨
     (∃ requested cycles, s.call = .running requested cycles ∧ 0 < cycles ∧
        ((∃ i, s.fetchInstr = some i ∧ run i s = .next t) ∨
         (lookup (s.mem.read s.pc) = none ∧ t = { s with
            pc := s.pc + 1
            fault := some ⟨s.mem.read s.pc, s.pc⟩
            call := .returned (.fault (s.mem.read s.pc) s.pc) })))) := by
  by_cases hf : s.fault = none
  · refine ⟨hf, ?_⟩
    by_cases hc : ∀ requested cycles, s.call ≠ .running requested cycles
    · rw [State.transition_waiting run s hf hc] at h
      exact .inl ⟨hc, by simpa using h.symm⟩
    · simp only [not_forall, ne_eq, not_not] at hc
      obtain ⟨requested, cycles, hc⟩ := hc
      by_cases hpos : 0 < cycles
      · rw [State.transition_budget run s _ _ hf hc hpos] at h
        refine .inr (.inr ⟨requested, cycles, hc, hpos, ?_⟩)
        cases hi : s.fetchInstr with
        | some i => exact .inl ⟨i, rfl, by rwa [State.runInstruction_of_some run s i hi] at h⟩
        | none =>
          rw [State.runInstruction_of_none run s hi] at h
          exact .inr ⟨(State.fetchInstr_eq_none_iff s).mp hi, by simpa using h.symm⟩
      · have hle := Int.not_lt.mp hpos
        rw [State.transition_exhausted run s _ _ hf hc hle] at h
        exact .inr (.inl ⟨requested, cycles, hc, hle, by simpa using h.symm⟩)
  · obtain ⟨r, hr⟩ := Option.ne_none_iff_exists'.mp hf
    simp [State.transition_faulted run s r hr] at h

end Sys2Proof.Machine
end

