-- ==== Sys2Proof/Laws/FetchLoop.lean ====
section
/-! SUPPORT. One lemma per primitive of the loop body as the spec writes it: the value it returns, the state it leaves
and the bus cycles it adds. -/

namespace Sys2Proof.Machine

theorem Bus.fetch8_eq (b : Bus) :
    b.fetch8 = (b.st.mem.read b.st.pc,
      ⟨{ b.st with pc := b.st.pc + 1, call := b.st.call.charge 1 }, b.log ++ [.fetch b.st.pc]⟩) := rfl

theorem Bus.fetch16_eq (b : Bus) :
    b.fetch16 = (joinLE (b.st.mem.read b.st.pc) (b.st.mem.read (b.st.pc + 1)),
      ⟨{ b.st with pc := b.st.pc + 2, call := b.st.call.charge 2 },
        b.log ++ [.fetch b.st.pc, .fetch (b.st.pc + 1)]⟩) := by
  simp [Bus.fetch16, Bus.fetch8_eq]

theorem Bus.read8_eq (b : Bus) (a : Word) :
    b.read8 a = (b.st.mem.read a, ⟨{ b.st with call := b.st.call.charge 1 }, b.log ++ [.read a]⟩) := rfl

theorem Bus.read16_eq (b : Bus) (a : Word) :
    b.read16 a = (joinLE (b.st.mem.read a) (b.st.mem.read (a + 1)),
      ⟨{ b.st with call := b.st.call.charge 2 }, b.log ++ [.read a, .read (a + 1)]⟩) := by
  simp [Bus.read16, Bus.read8_eq, inc16]

theorem Bus.extra_eq (b : Bus) : b.extra = ⟨{ b.st with call := b.st.call.charge 1 }, b.log ++ [.extra]⟩ := rfl

theorem Bus.write16_eq (b : Bus) (a v : Word) :
    b.write16 a v = ⟨{ b.st with
      mem := (b.st.mem.write a (loByte v)).write (a + 1) (hiByte v), call := b.st.call.charge 2 },
        b.log ++ [.write a, .write (a + 1)]⟩ := rfl

theorem Bus.readPtr_eq (cfg : Config) (zp : Byte) (b : Bus) :
    b.readPtr cfg zp = (b.st.mem.pointer cfg.zpPtrHi zp,
      ⟨{ b.st with call := b.st.call.charge 2 },
        b.log ++ [.read (zext16 zp), .read (ptrHiAddr cfg.zpPtrHi zp)]⟩) := by
  unfold Bus.readPtr Memory.pointer ptrHiAddr
  cases cfg.zpPtrHi <;> simp [Bus.read16_eq, Bus.read8_eq, add8]

theorem Bus.penalty_eq (cfg : Config) (base : Word) (idx : Byte) (b : Bus) :
    b.penalty cfg base idx =
      ⟨{ b.st with call := b.st.call.charge (pageCrossCost cfg.pageCrossRule base idx) },
        b.log ++ pageCrossCycle cfg.pageCrossRule base idx⟩ := by
  unfold Bus.penalty pageCrossCost pageCrossCycle
  split <;> simp [Bus.extra_eq]

end Sys2Proof.Machine
end

