-- ==== Sys2Proof/Laws/PerInstr.lean ====
section
/-! SUPPORT. Statements made of every instruction, one lemma per constructor (LAWS.json "per_instruction"). -/

/-- The encoded form of an instruction (spec/30_encoding.md R70, R71, R73, R78): it is well formed, its opcode stands in
the map with its operation and format, and its encoding is exactly as long as its opcode says. -/
def Sys2Proof.Laws.EncodedForm.Statement (i : Sys2Proof.Instr) : Prop :=
  i.wellFormed = true ∧
  Sys2Proof.lookup i.opcode = some ⟨i.opcode, i.operation, i.format⟩ ∧
  Sys2Proof.lengthOf i.opcode = some (Sys2Proof.encode i).length

namespace Sys2Proof.Laws.EncodedForm

theorem ldaImm (b : Byte) : Statement (.ldaImm b) := ⟨rfl, rfl, rfl⟩
theorem ldaZp (b : Byte) : Statement (.ldaZp b) := ⟨rfl, rfl, rfl⟩
theorem ldaZpX (b : Byte) : Statement (.ldaZpX b) := ⟨rfl, rfl, rfl⟩
theorem ldaAbs (w : Word) : Statement (.ldaAbs w) := ⟨rfl, rfl, rfl⟩
theorem ldaAbsX (w : Word) : Statement (.ldaAbsX w) := ⟨rfl, rfl, rfl⟩
theorem ldaAbsY (w : Word) : Statement (.ldaAbsY w) := ⟨rfl, rfl, rfl⟩
theorem ldaIndX (b : Byte) : Statement (.ldaIndX b) := ⟨rfl, rfl, rfl⟩
theorem ldaIndY (b : Byte) : Statement (.ldaIndY b) := ⟨rfl, rfl, rfl⟩
theorem jsr (w : Word) : Statement (.jsr w) := ⟨rfl, rfl, rfl⟩

end Sys2Proof.Laws.EncodedForm
end

