-- ==== Sys2Proof/Tests/Slice0.lean ====
section
/-! SUPPORT. Tests. Every expected value is the spec's: a worked example of spec/42_load_lda.md or spec/43_control_jsr.md,
or a vector of spec/95_test_vectors.md (named in each comment: W, P, A, L, J, E, S), worked out there from the rules. After
them, a witness for the hypotheses of every statement that has any. -/

namespace Sys2Proof.Machine

/-! ### Well-formedness and decoding -/

/-- R77: no operand makes an instruction illegal, so `Instr.wellFormed` has no check to fail; the boundary operands. -/
theorem test_every_operand_well_formed :
    (Instr.ldaImm 0x00).wellFormed = true ∧ (Instr.ldaZp 0xFF).wellFormed = true ∧
    (Instr.jsr 0xFFFF).wellFormed = true := by decide

/-- R76: bytes whose opcode is outside the map are ill formed. -/
theorem test_smoke_unmapped_opcode_refused : wellFormedBytes [0xEA] = false ∧ wellFormedBytes [0x00, 0x00] = false := by
  decide

/-- R71: an operand byte is missing. -/
theorem test_smoke_short_operand_refused :
    wellFormedBytes [0xA9] = false ∧ wellFormedBytes [0x20, 0x00] = false ∧ wellFormedBytes [] = false := by decide

/-- R71: a byte too many. -/
theorem test_smoke_long_operand_refused :
    wellFormedBytes [0xA9, 0x84, 0x00] = false ∧ wellFormedBytes [0x20, 0x00, 0x90, 0x00] = false := by decide

/-- R73, R71: one word of every row, its opcode written in bits from the table. -/
theorem test_decode_lda_immediate : decode [0b10101001, 0x84] = .instr (.ldaImm 0x84) [] := by decide
theorem test_decode_lda_zero_page : decode [0b10100101, 0x10] = .instr (.ldaZp 0x10) [] := by decide
theorem test_decode_lda_zero_page_x : decode [0b10110101, 0x80] = .instr (.ldaZpX 0x80) [] := by decide
theorem test_decode_lda_absolute : decode [0b10101101, 0x00, 0x44] = .instr (.ldaAbs 0x4400) [] := by decide
theorem test_decode_lda_absolute_x : decode [0b10111101, 0xFF, 0x44] = .instr (.ldaAbsX 0x44FF) [] := by decide
theorem test_decode_lda_absolute_y : decode [0b10111001, 0x02, 0x44] = .instr (.ldaAbsY 0x4402) [] := by decide
theorem test_decode_lda_indirect_x : decode [0b10100001, 0x20] = .instr (.ldaIndX 0x20) [] := by decide
theorem test_decode_lda_indirect_y : decode [0b10110001, 0x20] = .instr (.ldaIndY 0x20) [] := by decide
theorem test_decode_jsr : decode [0b00100000, 0x00, 0x90] = .instr (.jsr 0x9000) [] := by decide

/-- R78: an unknown opcode consumes only itself; R75: a byte of the LDA pattern's group outside the map is unknown. -/
theorem test_decode_unknown : decode [0x00, 0xA9] = .unknownOpcode 0x00 ∧ decode [0b10100011] = .unknownOpcode 0xA3 := by
  decide

/-- The table's numbering: byte 0 is bits 7..0; bits from nbits up count as 0. -/
theorem test_decode_table_word :
    decodeTableWord 24 0x900020 = some (.jsr 0x9000) ∧ decodeTableWord 16 0x84A9 = some (.ldaImm 0x84) ∧
    decodeTableWord 8 0x84A9 = some (.ldaImm 0x00) ∧ decodeTableWord 8 0x00 = none := by decide

/-- R79: the assembler forms. -/
theorem test_assembly_forms :
    (Instr.ldaImm 0x84).assembly = "LDA #$84" ∧ (Instr.ldaIndX 0x20).assembly = "LDA ($20,X)" ∧
    (Instr.ldaIndY 0x2A).assembly = "LDA ($2A),Y" ∧ (Instr.jsr 0x9000).assembly = "JSR $9000" := by decide

/-! ### One step of one instruction -/

/-- A core in an `execute(10)` call with bytes at PC and further bytes elsewhere. -/
def testState (pc : Word) (bytes : List Byte) (data : List (Word × Byte)) : State :=
  { State.reset with
    pc := pc
    call := .running 10 10
    mem := data.foldl (fun m p => m.write p.1 p.2) (Memory.initialize.writeAll pc bytes) }

/-- The state a step leaves, or the start state where it leaves none. -/
def testStep (s : State) : State :=
  match step s with
  | .next t => t
  | .fault _ => s
  | .refused _ => s

/-- W7. -/
theorem test_lda_immediate :
    (let t := testStep (testState 0xFFFC [0xA9, 0x84] [])
     (t.a, t.flags.z, t.flags.n, t.pc, t.call)) = (0x84, false, true, 0xFFFE, .running 10 8) := by decide

/-- L-6: a zero sets Z and clears N, and C, I, D, B, V stay 1. -/
theorem test_lda_immediate_keeps_other_flags :
    (testStep { testState 0x8000 [0xA9, 0x00] [] with
      a := 0x55, flags := ⟨true, false, true, true, true, true, true⟩ }).flags =
      ⟨true, true, true, true, true, true, false⟩ := by decide

/-- The example of R152. -/
theorem test_lda_zero_page :
    (let t := testStep (testState 0x8000 [0xA5, 0x10] [])
     (t.a, t.flags.z, t.flags.n, t.pc, t.call)) = (0x00, true, false, 0x8002, .running 10 7) := by decide

/-- A-2: the top of the zero page. -/
theorem test_lda_zero_page_top : (testStep (testState 0x8000 [0xA5, 0xFF] [(0x00FF, 0x5A)])).a = 0x5A := by decide

/-- W8: the index wraps within the zero page. -/
theorem test_lda_zero_page_x_wraps :
    (let t := testStep { testState 0xFFFC [0xB5, 0x80] [(0x007F, 0x37), (0x017F, 0x99)] with x := 0xFF }
     (t.a, t.pc, t.call)) = (0x37, 0xFFFE, .running 10 6) := by decide

/-- A-4: with X = 0 the extra cycle is still charged, and Y is not the index. -/
theorem test_lda_zero_page_x_zero_index :
    (let t := testStep { testState 0x8000 [0xB5, 0x10] [(0x0010, 0x01)] with y := 0x22 }
     (t.a, t.call)) = (0x01, .running 10 6) := by decide

/-- The example of R154. -/
theorem test_lda_absolute :
    (let t := testStep (testState 0x8000 [0xAD, 0x00, 0x44] [(0x4400, 0xFF)])
     (t.a, t.flags.z, t.flags.n, t.pc, t.call)) = (0xFF, false, true, 0x8003, .running 10 6) := by decide

/-- L-8: it reads its own opcode. -/
theorem test_lda_absolute_reads_itself : (testStep (testState 0x8000 [0xAD, 0x00, 0x80] [])).a = 0xAD := by decide

/-- A-8 and the example of R155: a page cross costs the fifth cycle. -/
theorem test_lda_absolute_x_page_cross :
    (let t := testStep { testState 0x8000 [0xBD, 0xFF, 0x44] [(0x4500, 0x80)] with x := 0x01 }
     (t.a, t.flags.n, t.pc, t.call)) = (0x80, true, 0x8003, .running 10 5) := by decide

/-- A-9: index 0xFF without a cross costs four. -/
theorem test_lda_absolute_x_no_cross :
    (let t := testStep { testState 0x8000 [0xBD, 0x00, 0x44] [(0x44FF, 0x12)] with x := 0xFF }
     (t.a, t.call)) = (0x12, .running 10 6) := by decide

/-- W9. -/
theorem test_lda_absolute_y_page_cross :
    (let t := testStep { testState 0xFFFC [0xB9, 0x02, 0x44] [(0x4501, 0x37)] with y := 0xFF }
     (t.a, t.pc, t.call)) = (0x37, 0xFFFF, .running 10 5) := by decide

/-- A-14: no cross, and X is not the index. -/
theorem test_lda_absolute_y_no_cross :
    (let t := testStep { testState 0x8000 [0xB9, 0x00, 0x10] [(0x1080, 0x44)] with x := 0x01, y := 0x80 }
     (t.a, t.call)) = (0x44, .running 10 6) := by decide

/-- The example of R157 (A-15). -/
theorem test_lda_indirect_x :
    (let t := testStep { testState 0x0200 [0xA1, 0x20] [(0x24, 0x00), (0x25, 0x80), (0x8000, 0x37)] with x := 0x04 }
     (t.a, t.pc, t.call)) = (0x37, 0x0202, .running 10 4) := by decide

/-- A-17: a pointer at 0xFF has its high byte at 0x0100 (`Linear`). -/
theorem test_lda_indirect_x_pointer_at_ff :
    (testStep { testState 0x0200 [0xA1, 0xFE]
      [(0xFF, 0x34), (0x100, 0x12), (0x00, 0x56), (0x1234, 0x77), (0x5634, 0x66)] with x := 0x01 }).a = 0x77 := by decide

/-- The example of R158 (A-18). -/
theorem test_lda_indirect_y :
    (let t := testStep { testState 0x0200 [0xB1, 0x20] [(0x20, 0x00), (0x21, 0x80)] with y := 0x10 }
     (t.a, t.flags.z, t.flags.n, t.pc, t.call)) = (0x00, true, false, 0x0202, .running 10 5) := by decide

/-- A-20: the sum wraps mod 2^16 and pays the penalty. -/
theorem test_lda_indirect_y_wraps :
    (let t := testStep { testState 0x0200 [0xB1, 0x20] [(0x20, 0xF0), (0x21, 0xFF), (0x0010, 0x2B)] with y := 0x20 }
     (t.a, t.call)) = (0x2B, .running 10 4) := by decide

/-- J-1. -/
theorem test_jsr :
    (let t := testStep (testState 0x8000 [0x20, 0x00, 0x90] [])
     (t.pc, t.sp, t.mem.read 0x0100, t.mem.read 0x0101, t.call)) =
      (0x9000, 0x0002, 0x02, 0x80, .running 10 4) := by decide

/-- J-4: SP[7:0] = 0xFF puts the high byte at 0x0200. -/
theorem test_jsr_across_page_one :
    (let t := testStep { testState 0x2000 [0x20, 0x00, 0x30] [] with sp := 0x00FF }
     (t.pc, t.sp, t.mem.read 0x01FF, t.mem.read 0x0200)) = (0x3000, 0x0101, 0x02, 0x20) := by decide

/-! ### The parameters' alternatives, the primitives, the fault, the call -/

/-- A-8 and A-9 under `RefDiff`. -/
theorem test_page_cross_ref_diff :
    pageCross .refDiff 0x44FF 0x01 = false ∧ pageCross .refDiff 0x4400 0xFF = true := by decide

/-- A-8 under `RefDiff`, as a whole call of that configuration: 4 cycles, where the default charges 5. -/
theorem test_execute_ref_diff :
    let s : State := { testState 0x8000 [0xBD, 0xFF, 0x44] [(0x4500, 0x80)] with x := 0x01, call := .idle }
    (match s.execute { config with pageCrossRule := .refDiff } 1, s.execute config 1 with
     | .next t, .next u => t.call == .returned (.used 4) && u.call == .returned (.used 5) && t.a == 0x80
     | _, _ => false) = true := by decide

/-- A-17 under `ZpWrap`, as a whole call of that configuration: the byte at 0x5634. -/
theorem test_execute_zp_wrap :
    let s : State := { testState 0x0200 [0xA1, 0xFE]
      [(0xFF, 0x34), (0x100, 0x12), (0x00, 0x56), (0x1234, 0x77), (0x5634, 0x66)] with x := 0x01, call := .idle }
    (match s.execute { config with zpPtrHi := .zpWrap } 1 with
     | .next t => t.a == 0x66 && t.call == .returned (.used 6)
     | _ => false) = true := by decide

/-- A-17 under `ZpWrap`. -/
theorem test_pointer_zp_wrap :
    (State.readPtr { config with zpPtrHi := .zpWrap } 0xFF
      (testState 0x0200 [] [(0xFF, 0x34), (0x100, 0x12), (0x00, 0x56)])).1 = 0x5634 := by decide

/-- P-2 and P-6: words wrap at the top of memory. -/
theorem test_words_wrap :
    (State.fetch16 (testState 0xFFFF [0x34, 0x12] [])).1 = 0x1234 ∧
    (State.write16 (testState 0x8000 [] []) 0xFFFF 0x1234).mem.read 0x0000 = 0x12 := by decide

/-- E-11 as one step: 0xEA is not in the map; the record holds it and its address, and PC has passed it. -/
theorem test_unknown_opcode :
    (let t := testStep (testState 0x0200 [0xEA] [])
     (t.fault, t.pc, t.call)) = (some ⟨0xEA, 0x0200⟩, 0x0201, .returned (.fault 0xEA 0x0200)) := by decide

/-- E-1: nothing requested. -/
theorem test_execute_zero :
    (match State.reset.execute config 0 with
     | .next t => t == { State.reset with call := .returned (.used 0) }
     | .fault _ => false
     | .refused _ => false) = true := by decide

/-- S-5: reset leaves the faulted state. -/
theorem test_reset_clears_fault :
    (match State.host config (testStep (testState 0x0200 [0xEA] [])) (.resetTo 0x0200) with
     | .next t => t == { State.reset with pc := 0x0200 }
     | .fault _ => false
     | .refused _ => false) = true := by decide

/-- From reset, a table word placed by `withFetchWord` is the very next instruction run. -/
theorem test_fetch_word_runs_first :
    (let t := testStep (State.reset.withFetchWord 16 0x84A9)
     (t.a, t.pc)) = (0x84, 0xFFFE) := by decide

/-- A store of what an unlisted byte reads as removes the cell: equal memories are equal data. -/
theorem test_memory_canonical :
    ((Memory.initialize.write 2 7).write 1 5).write 2 0 = Memory.initialize.write 1 5 := by decide

/-! ### Witnesses: concrete states and operands that meet all hypotheses of a statement together -/

/-- The faulted core of E-11, idle after its call returned the fault. -/
def faultedState : State :=
  { State.reset with pc := 0x0201, fault := some ⟨0xEA, 0x0200⟩, call := .returned (.fault 0xEA 0x0200) }

theorem reset_idle : State.reset.Idle := fun _ _ h => by cases h

theorem faulted_idle : faultedState.Idle := fun _ _ h => by cases h

theorem testState_atBoundary (pc : Word) (bytes : List Byte) (data : List (Word × Byte)) :
    (testState pc bytes data).AtBoundary 10 10 := ⟨rfl, rfl, by decide⟩

/-- HostResetGivesResetState, under both reset modes, after a fault too. -/
theorem witness_HostResetGivesResetState :
    faultedState.Idle ∧ ({ config with resetPcMode := .deref } : Config).resetPcMode ≠ .literal := ⟨faulted_idle, by decide⟩

/-- ResetLeavesSpecValues: its last clause's configuration. -/
theorem witness_ResetLeavesSpecValues : ({ config with resetPcMode := .deref } : Config).resetPcMode = .deref := rfl

theorem witness_ResetTwiceIsResetOnce :
    faultedState.host config (.resetTo 0x0200) = .next { State.reset with pc := 0x0200 } := rfl

theorem witness_HostWritesExactlyOneThing : State.reset.Idle := reset_idle

theorem witness_HostRefusedDuringCall : (testState 0 [] []).call = .running 10 10 := rfl

/-- NarrowCounterRefusesWideRequest: each clause at its boundary. -/
theorem witness_NarrowCounterRefusesWideRequest :
    State.reset.Idle ∧ State.reset.fault = none ∧
    ({ config with cycleCounter := .signed32 } : Config).cycleCounter = .signed32 ∧ (2 ^ 31 - 6 : Int) < 2 ^ 31 - 5 ∧
    -(2 ^ 31) ≤ (2 ^ 31 - 6 : Int) ∧ (2 ^ 31 - 6 : Int) ≤ 2 ^ 31 - 6 ∧ config.cycleCounter = .unbounded :=
  ⟨reset_idle, rfl, rfl, by decide, by decide, by decide, rfl⟩

/-- CanonicalMemoryDeterminedByReads: the same two bytes written in either order. -/
theorem witness_CanonicalMemoryDeterminedByReads :
    ((Memory.initialize.write 2 7).write 1 5).wf ∧ ((Memory.initialize.write 1 5).write 2 7).wf ∧
    ∀ addr, ((Memory.initialize.write 2 7).write 1 5).read addr = ((Memory.initialize.write 1 5).write 2 7).read addr :=
  ⟨by decide, by decide, fun _ => rfl⟩

/-- FetchesAdvancePcAndCharge at the top of memory. -/
theorem witness_FetchesAdvancePcAndCharge :
    (testState 0xFFFF [0x34, 0x12] []).call = .running 10 10 ∧ (testState 0xFFFF [0x34, 0x12] []).pc = 0xFFFF :=
  ⟨rfl, rfl⟩

theorem witness_ReadsChargeAndChangeNothing : (testState 0 [] []).call = .running 10 10 := rfl

/-- WordWriteLittleEndian: a third address beside a word at the top of memory. -/
theorem witness_WordWriteLittleEndian :
    (testState 0 [] []).call = .running 10 10 ∧ (0x0001 : Word) ≠ 0xFFFF ∧ (0x0001 : Word) ≠ 0xFFFF + 1 :=
  ⟨rfl, by decide, by decide⟩

/-- PointerHighByteAddress: a configuration for each clause. -/
theorem witness_PointerHighByteAddress :
    config.zpPtrHi = .linear ∧ ({ config with zpPtrHi := .zpWrap } : Config).zpPtrHi = .zpWrap := ⟨rfl, rfl⟩

theorem witness_LdaFrame : (Instr.ldaIndY 0xFF).isLda = true ∧ (Instr.ldaImm 0x00).isLda = true := ⟨rfl, rfl⟩

/-- JsrPushesReturnAddress, its last clause too. -/
theorem witness_JsrPushesReturnAddress :
    (testState 0xFFFE [0x20, 0x00, 0x30] []).call = .running 10 10 ∧ (testState 0xFFFE [0x20, 0x00, 0x30] []).pc = 0xFFFE :=
  ⟨rfl, rfl⟩

/-- JsrFrame: a byte outside the two stored. -/
theorem witness_JsrFrame :
    stackAddr (testState 0x8000 [] []).sp = 0x0100 ∧ (0x0102 : Word) ≠ 0x0100 ∧ (0x0102 : Word) ≠ 0x0100 + 1 := by decide

/-- StackGrowsUpAndWrapsInPageOne: after no call, the address of each clause (SP = 0x0100, and SP[7:0] = 0xFF). -/
theorem witness_StackGrowsUpAndWrapsInPageOne :
    (0x0100 : Word).toNat = 0x0100 + ((0x0100 : Word).toNat + 2 * ([] : List Word).length) % 256 ∧
    ({ testState 0x2000 [] [] with sp := 0x00FF } : State).sp.extractLsb' 0 8 = 0xFF := by decide

/-- JsrTargetFetchedAfterPush: P4's second half in one step, a JSR onto the byte its own push makes unknown (0x02 at 0x0100). -/
theorem witness_JsrTargetFetchedAfterPush :
    ∃ t, exec (.jsr 0x0100) (testState 0x0100 [0x20, 0x00, 0x01] []) = .next t ∧ t.AtBoundary 10 4 ∧
      lookup (t.mem.read 0x0100) = none :=
  ⟨_, rfl, ⟨rfl, rfl, by decide⟩, by decide⟩

theorem witness_DecodeOfEncode : (Instr.ldaAbsX 0xFFFF).wellFormed = true := rfl

theorem witness_EncodeOfDecode : decode [0xBD, 0xFF, 0x44, 0x01] = .instr (.ldaAbsX 0x44FF) [0x01] := by decide

theorem witness_UnmappedOpcodesRejected :
    (0xEA#8 : Byte) ∉ [0xA9#8, 0xA5#8, 0xB5#8, 0xAD#8, 0xBD#8, 0xB9#8, 0xA1#8, 0xB1#8, 0x20#8] := by decide

theorem witness_StepRunsDecodedInstruction :
    (testState 0xFFFE [0x20, 0x00, 0x30] []).AtBoundary 10 10 ∧
    decode (testState 0xFFFE [0x20, 0x00, 0x30] []).window = .instr (.jsr 0x3000) [] :=
  ⟨testState_atBoundary _ _ _, by decide⟩

theorem witness_StepRunsEncodedInstruction :
    (testState 0xFFFF [0xA9, 0x85] []).AtBoundary 10 10 ∧
    ∀ k (h : k < (encode (.ldaImm 0x85)).length),
      (testState 0xFFFF [0xA9, 0x85] []).mem.read (0xFFFF + BitVec.ofNat 16 k) = (encode (.ldaImm 0x85))[k] :=
  ⟨testState_atBoundary _ _ _, by decide⟩

theorem witness_UnknownOpcodeRecordsFault :
    (testState 0x0200 [0xEA] []).AtBoundary 10 10 ∧
    lookup ((testState 0x0200 [0xEA] []).mem.read (testState 0x0200 [0xEA] []).pc) = none :=
  ⟨testState_atBoundary _ _ _, by decide⟩

/-- FaultedCoreStaysFaulted: a faulted, idle core, and a host operation on it that succeeds and is no reset. -/
theorem witness_FaultedCoreStaysFaulted :
    faultedState.fault = some ⟨0xEA, 0x0200⟩ ∧ faultedState.Idle ∧
    ∃ t, faultedState.host config (.writeByte 0x0201 0xA9) = .next t ∧ HostOp.writeByte 0x0201 0xA9 ≠ .reset ∧
      ∀ v, HostOp.writeByte 0x0201 0xA9 ≠ .resetTo v :=
  ⟨rfl, faulted_idle, _, rfl, by decide, fun _ h => by cases h⟩

/-- ExhaustedBudgetReturnsCyclesUsed: each clause at its boundary 0. -/
theorem witness_ExhaustedBudgetReturnsCyclesUsed :
    ({ State.reset with call := .running 6 0 } : State).fault = none ∧
    ({ State.reset with call := .running 6 0 } : State).call = .running 6 0 ∧ (0 : Int) ≤ 0 ∧ State.reset.Idle :=
  ⟨rfl, rfl, by decide, reset_idle⟩

theorem witness_IdleStepKeepsAllState : State.reset.fault = none ∧ State.reset.Idle := ⟨rfl, reset_idle⟩

theorem witness_StepIsFetchLoopIteration : (testState 0x8000 [0xB1, 0x20] []).AtBoundary 10 10 :=
  testState_atBoundary _ _ _

theorem witness_ConfiguredStepIsFetchLoopIteration : (testState 0x8000 [0xBD, 0xFF, 0x44] []).AtBoundary 10 10 :=
  testState_atBoundary _ _ _

/-- ExecuteIsPassThenRest: an instruction at PC and an unknown opcode, a request at the top of a 32-bit counter's range. -/
theorem witness_ExecuteIsPassThenRest :
    let s : State := { testState 0x8000 [0xB1, 0x20] [] with call := .idle }
    let t : State := { testState 0x8000 [0xEA] [] with call := .idle }
    s.Idle ∧ s.fault = none ∧ (0 : Int) < 2 ^ 31 - 6 ∧
      requestFits { config with cycleCounter := .signed32 } (2 ^ 31 - 6) = true ∧
      s.fetchInstr = some (.ldaIndY 0x20) ∧ t.Idle ∧ t.fault = none ∧ t.fetchInstr = none :=
  ⟨fun _ _ h => (by cases h), rfl, by decide, by decide, by decide, fun _ _ h => (by cases h), rfl, by decide⟩

/-- BusCyclesFollowAccessTable: an instruction at PC, and none. -/
theorem witness_BusCyclesFollowAccessTable :
    (testState 0x8000 [0xB1, 0x20] []).fetchInstr = some (.ldaIndY 0x20) ∧
    (testState 0x8000 [0xEA] []).fetchInstr = none := by decide

/-- OnlyAccessedBytesMatter: the third byte of the window of a two-byte load. -/
theorem witness_OnlyAccessedBytesMatter :
    (testState 0x8000 [0xA5, 0x10] []).mem.wf ∧ (testState 0x8000 [0xA5, 0x10] []).AtBoundary 10 10 ∧
    ∀ e ∈ (Bus.iteration config ⟨testState 0x8000 [0xA5, 0x10] [], []⟩).log, e.addr? ≠ some 0x8002 :=
  ⟨by decide, testState_atBoundary _ _ _, by decide⟩

theorem witness_FetchWordRunsNext : decodeTableWord 24 0x900020 = some (.jsr 0x9000) := by decide

theorem witness_ExecuteAlwaysReturns : State.reset.Idle ∧ faultedState.Idle := ⟨reset_idle, faulted_idle⟩

/-- OvershootAtMostFive at its bound (E-7): JSR on `execute(1)` uses 6. -/
theorem witness_OvershootAtMostFive :
    let s : State := { testState 0x0200 [0x20, 0x00, 0x03] [] with call := .idle }
    s.Idle ∧ s.fault = none ∧ (0 : Int) < 1 ∧
      ∃ t, s.execute config 1 = .next t ∧ t.call = .returned (.used 6) :=
  ⟨fun _ _ h => (by cases h), rfl, by decide, _, rfl, rfl⟩

theorem witness_ExecuteOneRunsOneInstruction :
    let s : State := { testState 0x0200 [0xA9, 0x01] [] with call := .idle }
    s.Idle ∧ s.fault = none ∧ s.fetchInstr = some (.ldaImm 0x01) :=
  ⟨fun _ _ h => (by cases h), rfl, by decide⟩

theorem testState_inv : (testState 0x8000 [0xA5, 0x10] []).Inv :=
  ⟨by decide, by simp [State.CallConsistent, testState, State.reset]⟩

theorem witness_StepKeepsInvariant :
    (testState 0x8000 [0xA5, 0x10] []).Inv ∧ ∃ t, step (testState 0x8000 [0xA5, 0x10] []) = .next t :=
  ⟨testState_inv, _, rfl⟩

theorem witness_HostOperationsKeepInvariant :
    State.reset.mem.wf ∧ State.reset.CallConsistent ∧
    ∃ t, State.reset.host config (.writeByte 0xFFFC 0xA9) = .next t :=
  ⟨by decide, by simp [State.CallConsistent, State.reset], _, rfl⟩

theorem witness_ReachableStatesMeetInvariant : Reachable config State.reset := .reset

theorem witness_RunsNeverWriteInertState :
    ∃ t, Host.Core.run Sys2Proof.core 1 (testState 0x8000 [0xA5, 0x10] []) = .next t := ⟨_, rfl⟩

end Sys2Proof.Machine
end

section
/-! The step of a machine of any configuration against the loop body as the spec writes it (spec/41_dispatch_loop.md
R131): the decoder names the instruction whose operand the resolver would fetch, and running that instruction leaves
the state the loop body leaves. -/

namespace Sys2Proof.Machine

/-! ### Decoding is looking the opcode up and reading its operand -/

/-- The instruction an operation makes of the operand at PC, PC being past the opcode (R72). -/
def State.readOperand (s : State) : Operation → Instr
  | .lda .immediate => .ldaImm s.fetch8.1
  | .lda .zeroPage => .ldaZp s.fetch8.1
  | .lda .zeroPageX => .ldaZpX s.fetch8.1
  | .lda .absolute => .ldaAbs s.fetch16.1
  | .lda .absoluteX => .ldaAbsX s.fetch16.1
  | .lda .absoluteY => .ldaAbsY s.fetch16.1
  | .lda .indirectX => .ldaIndX s.fetch8.1
  | .lda .indirectY => .ldaIndY s.fetch8.1
  | .jsr => .jsr s.fetch16.1

/-- The window decoded at once is the operand the loop fetches byte by byte. -/
theorem State.fetchInstr_of_lookup (s : State) (row : OpcodeRow) (h : lookup (s.mem.read s.pc) = some row) :
    s.fetchInstr = some (s.opcodeFetched.readOperand row.operation) := by
  simp only [State.fetchInstr, State.window, decode_cons, h]
  cases row.operation with
  | lda mode => cases mode <;> rfl
  | jsr => rfl

/-! ### The loop body's primitives leave the machine's states -/

theorem Bus.penalty_st (cfg : Config) (base : Word) (idx : Byte) (b : Bus) :
    (b.penalty cfg base idx).st = b.st.tickPageCross cfg base idx := by
  rw [Bus.penalty_eq, State.tickPageCross_eq]

theorem Bus.readPtr_fst (cfg : Config) (zp : Byte) (b : Bus) :
    (b.readPtr cfg zp).1 = (b.st.readPtr cfg zp).1 := by
  rw [Bus.readPtr_eq, State.readPtr_eq]

theorem Bus.readPtr_st (cfg : Config) (zp : Byte) (b : Bus) :
    (b.readPtr cfg zp).2.st = (b.st.readPtr cfg zp).2 := by
  rw [Bus.readPtr_eq, State.readPtr_eq]

/-- `ExecLDA` where the loop's resolver answers the address and leaves the state of `r`: the machine's load of `r`
(R150). -/
theorem Bus.execLDA_st_of_addr (cfg : Config) (mode : AddrMode) (b : Bus) (r : Word × State)
    (haddr : (b.resolve cfg mode).1 = .addr r.1) (hst : (b.resolve cfg mode).2.st = r.2) :
    (b.execLDA cfg mode).st = loadFrom r := by
  simp only [Bus.execLDA, haddr, Bus.read8, hst]
  rfl

/-! ### The resolvers that read a parameter, fetching their operand -/

theorem Bus.execLDA_absoluteX_st (cfg : Config) (b : Bus) :
    (b.execLDA cfg .absoluteX).st = loadFrom (resolveAbsX cfg b.st.fetch16.1 b.st) :=
  Bus.execLDA_st_of_addr cfg .absoluteX b _ rfl (Bus.penalty_st cfg _ _ b.fetch16.2)

theorem Bus.execLDA_absoluteY_st (cfg : Config) (b : Bus) :
    (b.execLDA cfg .absoluteY).st = loadFrom (resolveAbsY cfg b.st.fetch16.1 b.st) :=
  Bus.execLDA_st_of_addr cfg .absoluteY b _ rfl (Bus.penalty_st cfg _ _ b.fetch16.2)

theorem Bus.execLDA_indirectX_st (cfg : Config) (b : Bus) :
    (b.execLDA cfg .indirectX).st = loadFrom (resolveIndX cfg b.st.fetch8.1 b.st) :=
  Bus.execLDA_st_of_addr cfg .indirectX b _
    (congrArg Resolved.addr (Bus.readPtr_fst cfg _ b.fetch8.2.extra)) (Bus.readPtr_st cfg _ b.fetch8.2.extra)

theorem Bus.execLDA_indirectY_st (cfg : Config) (b : Bus) :
    (b.execLDA cfg .indirectY).st = loadFrom (resolveIndY cfg b.st.fetch8.1 b.st) := by
  apply Bus.execLDA_st_of_addr
  · simp only [Bus.resolve, Bus.fetch8, Bus.readPtr_fst, Bus.readPtr_st, resolveIndY]
  · simp only [Bus.resolve, Bus.fetch8, Bus.readPtr_fst, Bus.readPtr_st, Bus.penalty_st, resolveIndY]

/-! ### One pass of the loop -/

/-- Decoding a load with its operand and running it leaves what `ExecLDA` leaves, which fetches the operand itself. -/
theorem execIn_readOperand_lda (cfg : Config) (s : State) (log : List BusCycle) (mode : AddrMode) :
    execIn cfg (s.opcodeFetched.readOperand (.lda mode)) s =
      .next (Bus.execLDA cfg mode ⟨s.opcodeFetched, log⟩).st := by
  cases mode with
  | immediate => rfl
  | zeroPage => rfl
  | zeroPageX => rfl
  | absolute => rfl
  | absoluteX => rw [Bus.execLDA_absoluteX_st]; rfl
  | absoluteY => rw [Bus.execLDA_absoluteY_st]; rfl
  | indirectX => rw [Bus.execLDA_indirectX_st]; rfl
  | indirectY => rw [Bus.execLDA_indirectY_st]; rfl

theorem execIn_readOperand_jsr (cfg : Config) (s : State) (log : List BusCycle) :
    execIn cfg (s.opcodeFetched.readOperand .jsr) s = .next (Bus.execJSR ⟨s.opcodeFetched, log⟩).st := rfl

/-- From every state, with any bus cycles before it. -/
theorem State.runInstruction_execIn (cfg : Config) (s : State) (log : List BusCycle) :
    s.runInstruction (execIn cfg) = .next (Bus.iteration cfg ⟨s, log⟩).st := by
  cases h : lookup (s.mem.read s.pc) with
  | none =>
    rw [State.runInstruction_of_none _ s ((State.fetchInstr_eq_none_iff s).mpr h)]
    simp [Bus.iteration, Bus.fetch8_eq, h, State.raiseUnknownOpcode]
  | some row =>
    rw [State.runInstruction_of_some _ s _ (s.fetchInstr_of_lookup row h)]
    simp only [Bus.iteration, Bus.fetch8_eq, h]
    cases row.operation with
    | lda mode => exact execIn_readOperand_lda cfg s _ mode
    | jsr => exact execIn_readOperand_jsr cfg s _

/-- Settles O59: at a boundary the step runs one instruction, which is one pass of the loop. -/
theorem configuredStepIsFetchLoopIteration : Obligations.ConfiguredStepIsFetchLoopIteration := by
  refine ⟨fun cfg s requested cycles ⟨hfault, hcall, hbudget⟩ => ?_, stepIn_config⟩
  calc stepIn cfg s
      = s.runInstruction (execIn cfg) := State.transition_budget _ s requested cycles hfault hcall hbudget
    _ = .next (Bus.iteration cfg ⟨s, []⟩).st := State.runInstruction_execIn cfg s []

end Sys2Proof.Machine
end

section
/-! What one instruction leaves, in closed form and under every configuration (spec/42_load_lda.md R150 to R159,
spec/43_control_jsr.md R170): a load changes A, Z, N, PC and the budget, JSR changes PC, SP, two bytes of memory and the
budget. The facts about every instruction follow from these two. -/

namespace Sys2Proof.Machine

/-! ### The two closed forms -/

/-- The byte an instruction started in `s` loads into A (R151 to R158); JSR loads none. -/
def loadedByte (cfg : Config) (s : State) : Instr → Option Byte
  | .ldaImm b => some b
  | .ldaZp b => some (s.mem.read (zext16 b))
  | .ldaZpX b => some (s.mem.read (zext16 (b + s.x)))
  | .ldaAbs w => some (s.mem.read w)
  | .ldaAbsX w => some (s.mem.read (w + zext16 s.x))
  | .ldaAbsY w => some (s.mem.read (w + zext16 s.y))
  | .ldaIndX b => some (s.mem.read (s.mem.pointer cfg.zpPtrHi (b + s.x)))
  | .ldaIndY b => some (s.mem.read (s.mem.pointer cfg.zpPtrHi b + zext16 s.y))
  | .jsr _ => none

/-- The state a load of `v` leaves: PC past the instruction, its cost paid, `v` in A (R150). -/
def State.afterLda (cfg : Config) (s : State) (i : Instr) (v : Byte) : State :=
  State.loadA v { s with
    pc := s.pc + BitVec.ofNat 16 i.format.length, call := s.call.charge (cycleCost cfg s i) }

/-- The state JSR leaves: the address of its own last byte at the stack address, SP stepped by 2, PC at the target
(R170). -/
def State.afterJsr (s : State) (target : Word) : State :=
  { s with
    pc := target
    sp := s.sp + 2
    mem := (s.mem.write (stackAddr s.sp) (loByte (s.pc + 2))).write (stackAddr s.sp + 1) (hiByte (s.pc + 2))
    call := s.call.charge 6 }

/-- Exactly the loads load a byte. -/
theorem isLda_iff_loadedByte (cfg : Config) (s : State) (i : Instr) :
    i.isLda = true ↔ ∃ v, loadedByte cfg s i = some v := by
  cases i <;> simp [Instr.isLda, loadedByte]

/-- Which byte is loaded depends neither on A nor on the flags (R21, R29). -/
theorem loadedByte_of_other_a_flags (cfg : Config) (s : State) (i : Instr) (a : Byte) (f : Flags) :
    loadedByte cfg { s with a := a, flags := f } i = loadedByte cfg s i := by
  cases i <;> rfl

/-- What an instruction costs depends neither on A nor on the flags (R21, R29). -/
theorem cycleCost_of_other_a_flags (cfg : Config) (s : State) (i : Instr) (a : Byte) (f : Flags) :
    cycleCost cfg { s with a := a, flags := f } i = cycleCost cfg s i := by
  cases i <;> rfl

theorem execIn_of_loadedByte (cfg : Config) (s : State) (i : Instr) (v : Byte) (h : loadedByte cfg s i = some v) :
    execIn cfg i s = .next (s.afterLda cfg i v) := by
  cases i with
  | jsr target => cases h
  | ldaAbsX w => cases h; exact congrArg _ (loadAbsX_eq cfg w s)
  | ldaAbsY w => cases h; exact congrArg _ (loadAbsY_eq cfg w s)
  | ldaIndX b => cases h; exact congrArg _ (loadIndX_eq cfg b s)
  | ldaIndY b => cases h; exact congrArg _ (loadIndY_eq cfg b s)
  | _ =>
    cases h
    simp [execIn, execLdaImm, execLdaZp, execLdaZpX, execLdaAbs, resolveImm_eq, resolveZp_eq, resolveZpX_eq,
      resolveAbs_eq, State.opcodeFetched_eq, loadValue_eq, loadFrom_eq, State.afterLda, State.loadA_eq, Instr.format,
      Format.length, cycleCost]

theorem execIn_jsr (cfg : Config) (s : State) (target : Word) :
    execIn cfg (.jsr target) s = .next (s.afterJsr target) := by
  simp [execIn, execJsr, State.call16_eq, State.fetch16_eq, State.opcodeFetched_eq, State.afterJsr]

/-- An instruction loads a byte or is JSR, and leaves what that form says. -/
theorem execIn_next_cases {cfg : Config} {s t : State} {i : Instr} (h : execIn cfg i s = .next t) :
    (∃ v, loadedByte cfg s i = some v ∧ t = s.afterLda cfg i v) ∨
    (∃ target, i = .jsr target ∧ t = s.afterJsr target) := by
  cases hi : loadedByte cfg s i with
  | some v =>
    rw [execIn_of_loadedByte cfg s i v hi] at h
    cases h
    exact .inl ⟨v, rfl, rfl⟩
  | none =>
    cases i with
    | jsr target =>
      rw [execIn_jsr] at h
      cases h
      exact .inr ⟨target, rfl, rfl⟩
    | _ => cases hi

/-! ### What every instruction keeps and charges -/

section
variable {cfg : Config} {s t : State} {i : Instr} (h : execIn cfg i s = .next t)
include h

theorem execIn_keeps_fault : t.fault = s.fault := by
  obtain ⟨v, -, rfl⟩ | ⟨target, rfl, rfl⟩ := execIn_next_cases h <;> rfl

theorem execIn_charges_cycleCost : t.call = s.call.charge (cycleCost cfg s i) := by
  obtain ⟨v, -, rfl⟩ | ⟨target, rfl, rfl⟩ := execIn_next_cases h <;> rfl

theorem execIn_sameInert : s.SameInert t := by
  obtain ⟨v, -, rfl⟩ | ⟨target, rfl, rfl⟩ := execIn_next_cases h <;>
    simp [State.SameInert, State.afterLda, State.afterJsr]

theorem execIn_keeps_wf (hwf : s.mem.wf) : t.mem.wf := by
  obtain ⟨v, -, rfl⟩ | ⟨target, rfl, rfl⟩ := execIn_next_cases h
  · exact hwf
  · exact Memory.write_wf _ _ _ (Memory.write_wf _ _ _ hwf)

end

theorem pageCrossCost_le_one (rule : PageCrossRule) (base : Word) (idx : Byte) : pageCrossCost rule base idx ≤ 1 := by
  unfold pageCrossCost
  split <;> decide

theorem cycleCost_le_six (cfg : Config) (s : State) (i : Instr) : cycleCost cfg s i ≤ 6 := by
  have hpage := pageCrossCost_le_one cfg.pageCrossRule
  cases i with
  | ldaAbsX w => have := hpage w s.x; simp only [cycleCost]; omega
  | ldaAbsY w => have := hpage w s.y; simp only [cycleCost]; omega
  | ldaIndY b => have := hpage (s.mem.pointer cfg.zpPtrHi b) s.y; simp only [cycleCost]; omega
  | _ => simp [cycleCost]

/-! ### A and the flags are written, never read -/

/-- Settles O27: neither the byte a load loads nor its cost depends on A or a flag, and JSR touches neither. -/
theorem noInstructionReadsAccumulatorOrFlags : Obligations.NoInstructionReadsAccumulatorOrFlags := by
  intro i s v f
  simp only [← execIn_config]
  cases hi : loadedByte config s i with
  | some b =>
    have hlda : i.isLda = true := (isLda_iff_loadedByte config s i).mpr ⟨b, hi⟩
    have hother : loadedByte config { s with a := v, flags := f } i = some b := by
      rw [loadedByte_of_other_a_flags, hi]
    refine ⟨_, execIn_of_loadedByte config s i b hi, ?_⟩
    rw [execIn_of_loadedByte config _ i b hother]
    simp [cycleCost_of_other_a_flags, State.afterLda, State.loadA_eq, Flags.setZN, hlda]
  | none =>
    cases i with
    | jsr target => exact ⟨_, execIn_jsr config s target, execIn_jsr config _ target⟩
    | _ => cases hi

end Sys2Proof.Machine
end

section
/-! The values after reset, and the datapath's words (spec/10_state.md R26, R34, R36 to R38). -/

namespace Sys2Proof.Machine

/-- Settles O1: the fields of the literal; under `Deref` the vector word is read after the zero fill. -/
theorem resetLeavesSpecValues : Obligations.ResetLeavesSpecValues := by
  refine ⟨rfl, rfl, rfl, rfl, rfl, rfl, Memory.read_initialize, rfl, rfl, fun cfg s vector hmode => ?_⟩
  simp [State.resetTo_eq, hmode]

theorem toNat_add8 (a b : Byte) : (add8 a b).toNat = (a.toNat + b.toNat) % 2 ^ 8 := BitVec.toNat_add a b

theorem toNat_add16 (a : Word) (b : Byte) : (add16 a b).toNat = (a.toNat + b.toNat) % 2 ^ 16 := by
  rw [add16, BitVec.toNat_add, toNat_zext16]

theorem toNat_inc16 (a : Word) : (inc16 a).toNat = (a.toNat + 1) % 2 ^ 16 := BitVec.toNat_add a 1

theorem toNat_dec16 (a : Word) : ((dec16 a).toNat : Int) = ((a.toNat : Int) - 1) % 2 ^ 16 := by
  have ha := a.isLt
  have hsub : (dec16 a).toNat = (2 ^ 16 - 1 + a.toNat) % 2 ^ 16 := BitVec.toNat_sub a 1
  omega

/-- Settles O12: each adder by its modular law, the SP step from what JSR leaves. -/
theorem addersAreModular : Obligations.AddersAreModular := by
  refine ⟨toNat_add8, toNat_add16, toNat_inc16, toNat_dec16, fun target s => ?_⟩
  rw [← execIn_config, execIn_jsr]
  exact ⟨_, rfl, BitVec.toNat_add s.sp 2⟩

theorem toNat_stackAddr (sp : Word) : (stackAddr sp).toNat = 0x0100 + sp.toNat % 256 := by
  have hlow : (zext16 (sp.extractLsb' 0 8)).toNat = sp.toNat % 256 := by
    rw [toNat_zext16]
    exact toNat_loByte sp
  rw [stackAddr, BitVec.toNat_add, hlow, show (0x0100 : Word).toNat = 0x0100 from rfl]
  omega

/-- Only the low byte of SP takes part (R26). -/
theorem stackAddr_append_loByte (hi : Byte) (sp : Word) : stackAddr (hi ++ sp.extractLsb' 0 8) = stackAddr sp := by
  show 0x0100 + zext16 (loByte (joinLE (loByte sp) hi)) = stackAddr sp
  rw [loByte_joinLE]
  rfl

/-- Settles O13: the low byte of SP is below 0x100, so no carry leaves page 1. -/
theorem stackAddressStaysInPageOne : Obligations.StackAddressStaysInPageOne := by
  intro sp
  have h := toNat_stackAddr sp
  exact ⟨h, by omega, by omega, fun hi => stackAddr_append_loByte hi sp⟩

/-- Bit 7 of a byte tells its upper half (R38). -/
theorem getLsbD_seven_iff (v : Byte) : v.getLsbD 7 = true ↔ 0x80 ≤ v.toNat := by
  rw [← BitVec.msb_eq_getLsbD_last v, BitVec.msb_eq_decide, decide_eq_true_iff]

/-- Settles O15: what `SetZN` writes into Z and N, and the load as `SetZN` with A written. -/
theorem setZNWritesZeroAndNegative : Obligations.SetZNWritesZeroAndNegative := by
  intro s v
  exact ⟨by simp, getLsbD_seven_iff v, rfl, rfl⟩

end Sys2Proof.Machine
end

section
/-! The state no run writes (spec/10_state.md R22, R23, R30). -/

namespace Sys2Proof.Machine

theorem State.SameInert.refl (s : State) : s.SameInert s := ⟨rfl, rfl, rfl, rfl, rfl, rfl, rfl⟩

theorem State.SameInert.trans {s t u : State} (hst : s.SameInert t) (htu : t.SameInert u) : s.SameInert u := by
  obtain ⟨hx, hy, hc, hi, hd, hb, hv⟩ := hst
  obtain ⟨hx', hy', hc', hi', hd', hb', hv'⟩ := htu
  exact ⟨hx'.trans hx, hy'.trans hy, hc'.trans hc, hi'.trans hi, hd'.trans hd, hb'.trans hb, hv'.trans hv⟩

theorem stepIn_sameInert (cfg : Config) (s t : State) (h : stepIn cfg s = .next t) : s.SameInert t := by
  obtain ⟨-, ⟨-, rfl⟩ | ⟨_, _, -, -, rfl⟩ | ⟨_, _, -, -, ⟨i, -, hrun⟩ | ⟨-, rfl⟩⟩⟩ :=
    State.transition_next_cases (execIn cfg) s t h
  case inl => exact State.SameInert.refl t
  case inr.inl => exact State.SameInert.refl s
  case inr.inr.inl => exact execIn_sameInert hrun
  case inr.inr.inr => exact State.SameInert.refl s

/-- A run of `k + 1` steps that stops nowhere is one step and a run of `k`. -/
theorem run_succ_eq_next {M : Host.Core} {k : Nat} {s t : M.State} (h : M.run (k + 1) s = .next t) :
    ∃ u, M.step s = .next u ∧ M.run k u = .next t := by
  unfold Host.Core.run at h
  split at h
  next u hu => exact ⟨u, hu, h⟩
  next => cases h
  next => cases h

/-- Settles O58, by induction on the number of steps. -/
theorem runsNeverWriteInertState : Obligations.RunsNeverWriteInertState := by
  intro k
  induction k with
  | zero =>
    intro s t h
    cases h
    exact State.SameInert.refl s
  | succ k ih =>
    intro s t h
    obtain ⟨u, hstep, hrest⟩ := run_succ_eq_next h
    exact (stepIn_sameInert config s u (by rwa [stepIn_config])).trans (ih u t hrest)

end Sys2Proof.Machine
end

section
/-! The invariant: it holds after reset, and every step and every host operation keeps it, under every configuration
(spec/10_state.md R32 to R35, spec/41_dispatch_loop.md R134 to R136, spec/60_exceptions.md R185). -/

namespace Sys2Proof.Machine

/-! ### Fault, call and budget agree: one condition for each kind of call -/

section
variable {s : State}

theorem State.callConsistent_idle (hcall : s.call = .idle) : s.CallConsistent ↔ s.fault = none := by
  simp [State.CallConsistent, hcall, Option.eq_none_iff_forall_ne_some]

theorem State.callConsistent_running {requested cycles : Int} (hcall : s.call = .running requested cycles) :
    s.CallConsistent ↔ s.fault = none ∧ cycles ≤ requested ∧ (cycles = requested ∨ -5 ≤ cycles) := by
  simp [State.CallConsistent, hcall, Option.eq_none_iff_forall_ne_some]

theorem State.callConsistent_used {n : Int} (hcall : s.call = .returned (.used n)) :
    s.CallConsistent ↔ s.fault = none ∧ 0 ≤ n := by
  simp [State.CallConsistent, hcall, Option.eq_none_iff_forall_ne_some]

theorem State.callConsistent_fault {op : Byte} {pc : Word} (hcall : s.call = .returned (.fault op pc)) :
    s.CallConsistent ↔ s.fault = some ⟨op, pc⟩ ∧ lookup op = none := by
  constructor
  · rintro ⟨hrecord, hresult, -, -⟩
    have hfault := hresult op pc hcall
    exact ⟨hfault, (hrecord _ hfault).1⟩
  · rintro ⟨hfault, hunmapped⟩
    simp [State.CallConsistent, hcall, hfault, hunmapped]

/-- The invariant sees the memory, the fault record and the call only. -/
theorem State.Inv.of_same {t : State} (h : s.Inv) (hmem : t.mem = s.mem) (hfault : t.fault = s.fault)
    (hcall : t.call = s.call) : t.Inv := by
  unfold State.Inv State.CallConsistent
  rw [hmem, hfault, hcall]
  exact h

end

/-- Settles O54: reset leaves no cell, no fault and no call. -/
theorem resetMeetsInvariant : Obligations.ResetMeetsInvariant :=
  ⟨Memory.initialize_wf, (State.callConsistent_idle rfl).mpr rfl⟩

theorem State.resetTo_inv (cfg : Config) (s : State) (vector : Word) : (s.resetTo cfg vector).Inv := by
  rw [State.resetTo_eq]
  exact resetMeetsInvariant.of_same rfl rfl rfl

/-! ### Steps -/

/-- An instruction started with budget left overshoots by at most 5, since it costs at most 6 (R136). -/
theorem execIn_keeps_callConsistent {cfg : Config} {s t : State} {i : Instr} {requested cycles : Int}
    (h : execIn cfg i s = .next t) (hs : s.CallConsistent) (hcall : s.call = .running requested cycles)
    (hpos : 0 < cycles) : t.CallConsistent := by
  obtain ⟨hfault, hle, -⟩ := (State.callConsistent_running hcall).mp hs
  have hcost := cycleCost_le_six cfg s i
  have hcall' : t.call = .running requested (cycles - cycleCost cfg s i) := by
    rw [execIn_charges_cycleCost h, hcall, Call.charge_running]
  exact (State.callConsistent_running hcall').mpr
    ⟨(execIn_keeps_fault h).trans hfault, by omega, .inr (by omega)⟩

theorem stepIn_keeps_inv (cfg : Config) (s t : State) (hs : s.Inv) (h : stepIn cfg s = .next t) : t.Inv := by
  obtain ⟨hwf, hcons⟩ := hs
  obtain ⟨hfault, ⟨-, rfl⟩ | ⟨requested, cycles, hcall, -, rfl⟩ | ⟨requested, cycles, hcall, hpos, hpass⟩⟩ :=
    State.transition_next_cases (execIn cfg) s t h
  case inl => exact ⟨hwf, hcons⟩
  case inr.inl =>
    obtain ⟨-, hle, -⟩ := (State.callConsistent_running hcall).mp hcons
    exact ⟨hwf, (State.callConsistent_used rfl).mpr ⟨hfault, Int.sub_nonneg_of_le hle⟩⟩
  case inr.inr =>
    obtain ⟨i, -, hrun⟩ | ⟨hunmapped, rfl⟩ := hpass
    · exact ⟨execIn_keeps_wf hrun hwf, execIn_keeps_callConsistent hrun hcons hcall hpos⟩
    · exact ⟨hwf, (State.callConsistent_fault rfl).mpr ⟨rfl, hunmapped⟩⟩

/-- Settles O55: the step is the default configuration's, and under every one it keeps the invariant. -/
theorem stepKeepsInvariant : Obligations.StepKeepsInvariant := fun s t hs h =>
  stepIn_keeps_inv config s t hs (by rwa [stepIn_config])

/-! ### Host operations -/

/-- A host operation that succeeds is one of an idle core (R64, R216). -/
theorem State.host_next {cfg : Config} {s t : State} {op : HostOp} (h : s.host cfg op = .next t) :
    s.hostIdle cfg op = .next t := by
  unfold State.host at h
  split at h
  next => cases h
  next => exact h
  next => exact h

/-- A call that begins either reports the recorded fault again or creates its budget (R131, R132, R185). -/
theorem State.beginExecute_next_cases {cfg : Config} {s t : State} {requested : Int}
    (h : s.beginExecute cfg requested = .next t) :
    (∃ r, s.fault = some r ∧ t = { s with call := .returned (.fault r.op r.pc) }) ∨
    (s.fault = none ∧ t = { s with call := .running requested requested }) := by
  unfold State.beginExecute at h
  split at h
  next r hr => exact .inl ⟨r, hr, by simpa using h.symm⟩
  next hnone =>
    split at h
    · exact .inr ⟨hnone, by simpa using h.symm⟩
    · cases h

theorem State.beginExecute_keeps_inv {cfg : Config} {s t : State} {requested : Int} (hs : s.Inv)
    (h : s.beginExecute cfg requested = .next t) : t.Inv := by
  obtain ⟨hwf, hrecord, -⟩ := hs
  obtain ⟨r, hr, rfl⟩ | ⟨hnone, rfl⟩ := State.beginExecute_next_cases h
  · exact ⟨hwf, (State.callConsistent_fault rfl).mpr ⟨hr, (hrecord r hr).1⟩⟩
  · exact ⟨hwf, (State.callConsistent_running rfl).mpr ⟨hnone, le_rfl, .inl rfl⟩⟩

theorem State.host_keeps_inv {cfg : Config} {s t : State} {op : HostOp} (hs : s.Inv)
    (h : s.host cfg op = .next t) : t.Inv := by
  have hidle := State.host_next h
  cases op with
  | execute requested => exact State.beginExecute_keeps_inv hs hidle
  | reset => cases hidle; exact State.resetTo_inv cfg s _
  | resetTo vector => cases hidle; exact State.resetTo_inv cfg s vector
  | writeByte addr value =>
    cases hidle
    obtain ⟨hwf, hcons⟩ := hs
    exact ⟨Memory.write_wf _ addr value hwf, hcons⟩
  | writeReg8 r value => cases hidle; cases r <;> exact hs.of_same rfl rfl rfl
  | writeReg16 r value => cases hidle; cases r <;> exact hs.of_same rfl rfl rfl
  | writeFlag f value => cases hidle; exact hs.of_same rfl rfl rfl

/-- Settles O57, by induction on how the state was reached. -/
theorem reachableStatesMeetInvariant : Obligations.ReachableStatesMeetInvariant := by
  intro cfg s h
  induction h with
  | reset => exact State.resetTo_inv cfg State.reset _
  | host s t op _ hop ih => exact State.host_keeps_inv ih hop
  | step s t _ hstep ih => exact stepIn_keeps_inv cfg s t ih hstep

end Sys2Proof.Machine
end

section
/-! The AddressSpace as data and the access primitives (spec/20_memory.md R40 to R52), and the host kept out of it
during a call (R64). -/

namespace Sys2Proof.Machine

/-! ### The canonical form -/

/-- A byte that reads as other than 0x00 is listed. -/
theorem Memory.mem_of_find {m : Memory} {a : Nat} (h : Memory.find m a ≠ Memory.unlisted) :
    (a, Memory.find m a) ∈ m := by
  induction m with
  | nil => exact absurd rfl h
  | cons p rest ih =>
    obtain ⟨k, w⟩ := p
    by_cases hk : k = a
    · simp [Memory.find, hk]
    · simp only [Memory.find, hk, if_false] at h ⊢
      exact List.mem_cons_of_mem _ (ih h)

/-- A canonical memory reads at each listed address as the list says. -/
theorem Memory.find_of_mem {m : Memory} {p : Host.Cell} (hsorted : m.Pairwise (fun p q => p.1 < q.1)) (h : p ∈ m) :
    Memory.find m p.1 = p.2 := by
  induction m with
  | nil => cases h
  | cons q rest ih =>
    obtain ⟨hq, hrest⟩ := List.pairwise_cons.mp hsorted
    rcases List.mem_cons.mp h with rfl | hp
    · simp [Memory.find]
    · simp [Memory.find, Nat.ne_of_lt (hq p hp), ih hrest hp]

/-- What one canonical memory lists, every canonical memory that reads like it lists. -/
theorem Memory.subset_of_read_eq {m m' : Memory} (hm : m.wf) (hread : ∀ addr, m.read addr = m'.read addr) :
    m ⊆ m' := by
  intro p hp
  obtain ⟨hsorted, hcells⟩ := hm
  obtain ⟨hlt, hne⟩ := hcells p hp
  have hfind : Memory.find m' p.1 = p.2 := by
    have h := hread (BitVec.ofNat 16 p.1)
    rw [Memory.read, Memory.read, BitVec.toNat_ofNat, Nat.mod_eq_of_lt hlt, Memory.find_of_mem hsorted hp] at h
    exact h.symm
  have hlisted := Memory.mem_of_find (hfind.trans_ne hne)
  rwa [hfind] at hlisted

/-- Settles O7: two strictly rising lists with the same cells are equal. -/
theorem canonicalMemoryDeterminedByReads : Obligations.CanonicalMemoryDeterminedByReads := by
  intro m m' hm hm' hread
  have : Std.Irrefl fun p q : Host.Cell => p.1 < q.1 := ⟨fun p => Nat.lt_irrefl p.1⟩
  have : Std.Antisymm fun p q : Host.Cell => p.1 < q.1 := ⟨fun _ _ h h' => absurd h (Nat.lt_asymm h')⟩
  exact List.Subset.antisymm_of_pairwise hm.1 hm'.1 (Memory.subset_of_read_eq hm hread)
    (Memory.subset_of_read_eq hm' fun addr => (hread addr).symm)

/-- In a canonical memory writes at different addresses commute, as equal data. -/
theorem Memory.write_comm {m : Memory} (hm : m.wf) {a b : Word} (hab : a ≠ b) (v w : Byte) :
    (m.write a v).write b w = (m.write b w).write a v := by
  apply canonicalMemoryDeterminedByReads
  · exact Memory.write_wf _ _ _ (Memory.write_wf _ _ _ hm)
  · exact Memory.write_wf _ _ _ (Memory.write_wf _ _ _ hm)
  · intro c
    simp only [Memory.read_write]
    by_cases hca : c = a
    · simp [hca, hab]
    · simp [hca]

/-- Writing what a byte already reads as changes nothing in a canonical memory. -/
theorem Memory.write_read_self {m : Memory} (hm : m.wf) (a : Word) : m.write a (m.read a) = m := by
  apply canonicalMemoryDeterminedByReads _ _ (Memory.write_wf _ _ _ hm) hm
  intro c
  rw [Memory.read_write]
  split
  · next hc => rw [hc]
  · rfl

/-! ### The access primitives -/

/-- Settles O8: PC steps as word addition, and the call pays what the fetches' closed forms say. -/
theorem fetchesAdvancePcAndCharge : Obligations.FetchesAdvancePcAndCharge := by
  intro s requested cycles hcall
  have hbyte : s.fetch8.2.pc.toNat = (s.pc.toNat + 1) % 2 ^ 16 := BitVec.toNat_add s.pc 1
  have hword : s.fetch16.2.pc.toNat = (s.pc.toNat + 2) % 2 ^ 16 := by
    rw [State.fetch16_eq]; exact BitVec.toNat_add s.pc 2
  refine ⟨rfl, hbyte, ?_, ?_, hword, ?_⟩
  · simp [State.fetch8_eq, hcall]
  · rw [State.fetch16_eq, toNat_joinLE]
  · simp [State.fetch16_eq, hcall]

/-- Settles O9: the reads' closed forms, with the charge of a running call. -/
theorem readsChargeAndChangeNothing : Obligations.ReadsChargeAndChangeNothing := by
  intro s addr requested cycles hcall
  constructor
  · simp [State.read8_eq, hcall]
  · simp [State.read16_eq, hcall, joinLE]

theorem State.write16_read_lo (s : State) (a v : Word) : (s.write16 a v).mem.read a = loByte v := by
  have hne : a ≠ a + 1 := (word_succ_ne a).symm
  rw [State.write16_read, if_neg hne, if_pos rfl]

theorem State.write16_read_hi (s : State) (a v : Word) : (s.write16 a v).mem.read (a + 1) = hiByte v := by
  rw [State.write16_read, if_pos rfl]

theorem State.write16_read_other (s : State) (v : Word) {a b : Word} (hlo : b ≠ a) (hhi : b ≠ a + 1) :
    (s.write16 a v).mem.read b = s.mem.read b := by
  rw [State.write16_read, if_neg hhi, if_neg hlo]

/-- Settles O10: the three cases of what a byte reads as after `Write16`, and its closed form. -/
theorem wordWriteLittleEndian : Obligations.WordWriteLittleEndian := by
  intro s addr v requested cycles hcall
  refine ⟨s.write16_read_lo addr v, s.write16_read_hi addr v, fun b => s.write16_read_other v, ?_⟩
  simp [State.write16_eq, hcall]

/-- `Read16` joins what the address and the next one read as (R47, R51). -/
theorem State.read16_fst_of_read {s : State} {addr : Word} {lo hi : Byte} (hlo : s.mem.read addr = lo)
    (hhi : s.mem.read (addr + 1) = hi) : (s.read16 addr).1 = joinLE lo hi := by
  rw [State.read16_eq, hlo, hhi]

/-- Settles O11: in each case both bytes stand where `Read16` looks, since the two addresses differ. -/
theorem mixedWidthAccessesAgree : Obligations.MixedWidthAccessesAgree := by
  intro s addr v lo hi
  have hne : addr + 1 ≠ addr := word_succ_ne addr
  refine ⟨?_, State.read16_fst_of_read ?_ ?_, State.read16_fst_of_read ?_ ?_⟩
  · calc ((s.write16 addr v).read16 addr).1
        = joinLE (loByte v) (hiByte v) :=
          State.read16_fst_of_read (s.write16_read_lo addr v) (s.write16_read_hi addr v)
      _ = v := joinLE_loByte_hiByte v
  · rw [Memory.read_write_other _ _ _ _ hne.symm, Memory.read_write_same]
  · exact Memory.read_write_same _ _ _
  · exact Memory.read_write_same _ _ _
  · rw [Memory.read_write_other _ _ _ _ hne, Memory.read_write_same]

/-- Settles O5: the refusal is the first thing `host` decides. -/
theorem hostRefusedDuringCall : Obligations.HostRefusedDuringCall := by
  intro cfg s requested cycles op hcall
  simp [State.host, hcall]

end Sys2Proof.Machine
end

section
/-! An instruction depends on no byte it does not access, and touches none (spec/20_memory.md R49, R56). What ignores a
byte is composed: each access primitive ignores every byte it does not access, and so does one after another; the loop
body is made of them. -/

namespace Sys2Proof.Machine

/-! ### A byte changed, and a pass that does not access it -/

/-- The state with another byte at `addr`. -/
def State.poke (addr : Word) (v : Byte) (s : State) : State := { s with mem := s.mem.write addr v }

theorem State.poke_read {addr a : Word} (v : Byte) (s : State) (h : a ≠ addr) :
    (s.poke addr v).mem.read a = s.mem.read a := Memory.read_write_other _ _ _ _ h

def Bus.poke (addr : Word) (v : Byte) (b : Bus) : Bus := ⟨b.st.poke addr v, b.log⟩

/-- No cycle of the log accesses `addr`. -/
def Avoids (addr : Word) (log : List BusCycle) : Prop := ∀ e ∈ log, e.addr? ≠ some addr

theorem avoids_append {addr : Word} {log log' : List BusCycle} :
    Avoids addr (log ++ log') ↔ Avoids addr log ∧ Avoids addr log' := List.forall_mem_append

/-- From canonical memory, `f` ignores the byte at `addr` unless it accesses it: with `v` there it takes the same cycles,
returns the same and leaves the same state but for that byte. -/
def Ignores {α : Type} (addr : Word) (v : Byte) (f : Bus → α × Bus) : Prop :=
  ∀ b : Bus, b.st.mem.wf → (f b).2.st.mem.wf ∧ (Avoids addr (f b).2.log →
    Avoids addr b.log ∧ f (b.poke addr v) = ((f b).1, (f b).2.poke addr v))

section
variable {α β : Type} {addr : Word} {v : Byte}

/-- One after another. -/
theorem Ignores.bind {f : Bus → α × Bus} {g : α → Bus → β × Bus} (hf : Ignores addr v f)
    (hg : ∀ x, Ignores addr v (g x)) : Ignores addr v (fun b => g (f b).1 (f b).2) := by
  intro b hwf
  obtain ⟨hwf₁, hf⟩ := hf b hwf
  obtain ⟨hwf₂, hg⟩ := hg (f b).1 (f b).2 hwf₁
  refine ⟨hwf₂, fun havoid => ?_⟩
  obtain ⟨havoid₁, hg⟩ := hg havoid
  obtain ⟨havoid₀, hf⟩ := hf havoid₁
  exact ⟨havoid₀, by simp only [hf, hg]⟩

/-- What takes no cycle and leaves the state: a value that no byte of memory decides. -/
theorem Ignores.value (r : State → α) (hr : ∀ s, r (s.poke addr v) = r s) : Ignores addr v (fun b => (r b.st, b)) :=
  fun b hwf => ⟨hwf, fun havoid => ⟨havoid, congrArg (·, b.poke addr v) (hr b.st)⟩⟩

theorem Ignores.pure (x : α) : Ignores addr v (fun b => (x, b)) := .value (fun _ => x) fun _ => rfl

/-- What takes no cycle and writes registers alone. -/
theorem Ignores.update (next : State → State) (hmem : ∀ s, (next s).mem = s.mem)
    (hnext : ∀ s, next (s.poke addr v) = (next s).poke addr v) :
    Ignores addr v (fun b => ((), (⟨next b.st, b.log⟩ : Bus))) :=
  fun b hwf => ⟨(hmem b.st).symm ▸ hwf, fun havoid => ⟨havoid, by simp only [Bus.poke, hnext]⟩⟩

/-- An access primitive, which returns `r`, leaves `next` and adds the cycles `log`, whatever the state is. -/
theorem Ignores.primitive (r : State → α) (next : State → State) (log : State → List BusCycle)
    (hwf : ∀ s : State, s.mem.wf → (next s).mem.wf)
    (hpoke : ∀ s : State, s.mem.wf → Avoids addr (log s) → r (s.poke addr v) = r s ∧
      next (s.poke addr v) = (next s).poke addr v ∧ log (s.poke addr v) = log s) :
    Ignores addr v (fun b => (r b.st, (⟨next b.st, b.log ++ log b.st⟩ : Bus))) := by
  refine fun b hb => ⟨hwf _ hb, fun havoid => ?_⟩
  obtain ⟨hbefore, hadded⟩ := avoids_append.mp havoid
  obtain ⟨hr, hnext, hlog⟩ := hpoke b.st hb hadded
  exact ⟨hbefore, by simp only [Bus.poke, hr, hnext, hlog]⟩

/-! ### The primitives -/

theorem Bus.fetch8_ignores : Ignores addr v Bus.fetch8 := by
  refine .primitive (fun s => s.fetch8.1) (fun s => s.fetch8.2) (fun s => [.fetch s.pc]) (fun _ hwf => hwf)
    fun s _ havoid => ⟨?_, rfl, rfl⟩
  have hpc : s.pc ≠ addr := by simpa [Avoids, BusCycle.addr?] using havoid
  exact s.poke_read v hpc

theorem Bus.read8_ignores (a : Word) : Ignores addr v (fun b => b.read8 a) := by
  refine .primitive (fun s => (s.read8 a).1) (fun s => (s.read8 a).2) (fun _ => [.read a]) (fun _ hwf => hwf)
    fun s _ havoid => ⟨?_, rfl, rfl⟩
  have ha : a ≠ addr := by simpa [Avoids, BusCycle.addr?] using havoid
  exact s.poke_read v ha

theorem Bus.extra_ignores : Ignores addr v (fun b => ((), b.extra)) :=
  .primitive (fun _ => ()) (fun s => s.tick 1) (fun _ => [.extra]) (fun _ hwf => hwf) fun _ _ _ => ⟨rfl, rfl, rfl⟩

/-- The one primitive that writes: its bytes and the ignored one are written in either order. -/
theorem Bus.write16_ignores (a w : Word) : Ignores addr v (fun b => ((), b.write16 a w)) := by
  refine .primitive (fun _ => ()) (fun s => s.write16 a w) (fun _ => [.write a, .write (inc16 a)])
    (fun s hwf => s.write16_wf a w hwf) fun s hwf havoid => ⟨rfl, ?_, rfl⟩
  obtain ⟨hlo, hhi⟩ : a ≠ addr ∧ inc16 a ≠ addr := by simpa [Avoids, BusCycle.addr?] using havoid
  have hmem : ((s.mem.write addr v).write a (loByte w)).write (inc16 a) (hiByte w) =
      ((s.mem.write a (loByte w)).write (inc16 a) (hiByte w)).write addr v := by
    rw [Memory.write_comm hwf hlo.symm, Memory.write_comm (Memory.write_wf _ _ _ hwf) hhi.symm]
  simp only [State.write16, State.poke, hmem]
  rfl

/-! ### The loop body -/

theorem Bus.fetch16_ignores : Ignores addr v Bus.fetch16 :=
  Bus.fetch8_ignores.bind fun lo => Bus.fetch8_ignores.bind fun hi => .pure (joinLE lo hi)

theorem Bus.readPtr_ignores (cfg : Config) (zp : Byte) : Ignores addr v (Bus.readPtr cfg zp) := by
  unfold Bus.readPtr
  cases cfg.zpPtrHi <;>
    exact (Bus.read8_ignores _).bind fun lo => (Bus.read8_ignores _).bind fun hi => .pure (joinLE lo hi)

theorem Bus.penalty_ignores (cfg : Config) (base : Word) (idx : Byte) :
    Ignores addr v (fun b => ((), b.penalty cfg base idx)) := by
  unfold Bus.penalty
  split
  · exact Bus.extra_ignores
  · exact .pure ()

theorem ignores_x : Ignores addr v (fun b => (b.st.x, b)) := .value (fun s => s.x) fun _ => rfl

theorem ignores_y : Ignores addr v (fun b => (b.st.y, b)) := .value (fun s => s.y) fun _ => rfl

theorem Bus.resolve_ignores (cfg : Config) (mode : AddrMode) : Ignores addr v (fun b => b.resolve cfg mode) := by
  cases mode with
  | immediate => exact Bus.fetch8_ignores.bind fun z => .pure (Resolved.value z)
  | zeroPage => exact Bus.fetch8_ignores.bind fun z => .pure (Resolved.addr (zext16 z))
  | zeroPageX =>
    exact Bus.fetch8_ignores.bind fun z => Bus.extra_ignores.bind fun _ => ignores_x.bind fun x =>
      .pure (Resolved.addr (zext16 (add8 z x)))
  | absolute => exact Bus.fetch16_ignores.bind fun w => .pure (Resolved.addr w)
  | absoluteX =>
    exact Bus.fetch16_ignores.bind fun base => ignores_x.bind fun x =>
      (Bus.penalty_ignores cfg base x).bind fun _ => .pure (Resolved.addr (add16 base x))
  | absoluteY =>
    exact Bus.fetch16_ignores.bind fun base => ignores_y.bind fun y =>
      (Bus.penalty_ignores cfg base y).bind fun _ => .pure (Resolved.addr (add16 base y))
  | indirectX =>
    exact Bus.fetch8_ignores.bind fun z => Bus.extra_ignores.bind fun _ => ignores_x.bind fun x =>
      (Bus.readPtr_ignores cfg (add8 z x)).bind fun ptr => .pure (Resolved.addr ptr)
  | indirectY =>
    exact Bus.fetch8_ignores.bind fun z => (Bus.readPtr_ignores cfg z).bind fun ptr => ignores_y.bind fun y =>
      (Bus.penalty_ignores cfg ptr y).bind fun _ => .pure (Resolved.addr (add16 ptr y))

/-- `ExecLDA` after its `Resolve` (R150). -/
def Bus.loadResolved (b : Bus) : Resolved → Bus
  | .value w => ⟨b.st.loadA w, b.log⟩
  | .addr ea => ⟨(b.read8 ea).2.st.loadA (b.read8 ea).1, (b.read8 ea).2.log⟩

theorem Bus.execLDA_eq (cfg : Config) (mode : AddrMode) (b : Bus) :
    b.execLDA cfg mode = (b.resolve cfg mode).2.loadResolved (b.resolve cfg mode).1 := by
  unfold Bus.execLDA
  obtain ⟨w | ea, b₁⟩ := b.resolve cfg mode <;> rfl

theorem Bus.loadResolved_ignores (r : Resolved) : Ignores addr v (fun b => ((), b.loadResolved r)) := by
  have hload (w : Byte) : Ignores addr v (fun b => ((), (⟨b.st.loadA w, b.log⟩ : Bus))) :=
    .update (fun s => s.loadA w) (fun _ => rfl) fun _ => rfl
  cases r with
  | value w => exact hload w
  | addr ea => exact (Bus.read8_ignores ea).bind hload

theorem Bus.execLDA_ignores (cfg : Config) (mode : AddrMode) :
    Ignores addr v (fun b => ((), b.execLDA cfg mode)) := by
  simp only [Bus.execLDA_eq]
  exact (Bus.resolve_ignores cfg mode).bind Bus.loadResolved_ignores

theorem Bus.execJSR_ignores : Ignores addr v (fun b => ((), b.execJSR)) :=
  Bus.fetch16_ignores.bind fun target =>
  (Ignores.value (fun s => s.sp) fun _ => rfl).bind fun sp =>
  (Ignores.value (fun s => s.pc) fun _ => rfl).bind fun pc =>
  (Bus.write16_ignores (stackAddr sp) (dec16 pc)).bind fun _ =>
  (Ignores.update (fun s => { s with sp := s.sp + 2 }) (fun _ => rfl) fun _ => rfl).bind fun _ =>
  Bus.extra_ignores.bind fun _ => .update (fun s => { s with pc := target }) (fun _ => rfl) fun _ => rfl

/-- The loop body after its `Fetch8` of `op` at `pc0` (R131). -/
def Bus.runFetched (cfg : Config) (pc0 : Word) (op : Byte) (b : Bus) : Bus :=
  match lookup op with
  | some row =>
    match row.operation with
    | .lda mode => b.execLDA cfg mode
    | .jsr => b.execJSR
  | none => ⟨b.st.raiseUnknownOpcode op pc0, b.log⟩

theorem Bus.iteration_eq (cfg : Config) (b : Bus) :
    b.iteration cfg = b.fetch8.2.runFetched cfg b.st.pc b.fetch8.1 := rfl

theorem Bus.runFetched_ignores (cfg : Config) (pc0 : Word) (op : Byte) :
    Ignores addr v (fun b => ((), b.runFetched cfg pc0 op)) := by
  unfold Bus.runFetched
  cases lookup op with
  | none => exact .update (fun s => s.raiseUnknownOpcode op pc0) (fun _ => rfl) fun _ => rfl
  | some row =>
    cases hop : row.operation with
    | lda mode => simpa only [hop] using Bus.execLDA_ignores cfg mode
    | jsr => simpa only [hop] using Bus.execJSR_ignores

/-- The whole pass, under every configuration. -/
theorem Bus.iteration_ignores (cfg : Config) : Ignores addr v (fun b => ((), b.iteration cfg)) := by
  simp only [Bus.iteration_eq]
  exact (Ignores.value (fun s => s.pc) fun _ => rfl).bind fun pc0 =>
    Bus.fetch8_ignores.bind (Bus.runFetched_ignores cfg pc0)

end

/-- A pass that does not access a byte leaves the state with another value there as it leaves the state itself. -/
theorem Bus.iteration_st_poke (cfg : Config) {s : State} {addr : Word} (v : Byte) (hwf : s.mem.wf)
    (havoid : Avoids addr (Bus.iteration cfg ⟨s, []⟩).log) :
    (Bus.iteration cfg ⟨s.poke addr v, []⟩).st = (Bus.iteration cfg ⟨s, []⟩).st.poke addr v := by
  obtain ⟨-, hignores⟩ := Bus.iteration_ignores (v := v) cfg ⟨s, []⟩ hwf
  exact congrArg (fun r => r.2.st) (hignores havoid).2

/-- A pass that ignores a byte leaves it: writing there what it holds changes nothing before the pass, so the pass ends
with that byte written. -/
theorem Bus.iteration_st_read (cfg : Config) {s : State} {addr : Word} (hwf : s.mem.wf)
    (havoid : Avoids addr (Bus.iteration cfg ⟨s, []⟩).log) :
    (Bus.iteration cfg ⟨s, []⟩).st.mem.read addr = s.mem.read addr := by
  have hsame : s.poke addr (s.mem.read addr) = s := by rw [State.poke, Memory.write_read_self hwf]
  have hpoke := Bus.iteration_st_poke cfg (s.mem.read addr) hwf havoid
  rw [hsame] at hpoke
  rw [hpoke]
  exact Memory.read_write_same _ _ _

/-- Settles O49: at a boundary the step is one pass of the loop, which ignores the byte and leaves it. -/
theorem onlyAccessedBytesMatter : Obligations.OnlyAccessedBytesMatter := by
  intro s requested cycles addr v hwf hs havoid
  have hstep (s : State) (hs : s.AtBoundary requested cycles) :
      step s = .next (Bus.iteration config ⟨s, []⟩).st := by
    rw [← stepIn_config]
    exact configuredStepIsFetchLoopIteration.1 config s requested cycles hs
  refine ⟨_, hstep s hs, Bus.iteration_st_read config hwf havoid, ?_⟩
  calc step (s.poke addr v)
      = .next (Bus.iteration config ⟨s.poke addr v, []⟩).st := hstep (s.poke addr v) hs
    _ = .next ((Bus.iteration config ⟨s, []⟩).st.poke addr v) :=
        congrArg _ (Bus.iteration_st_poke config v hwf havoid)

end Sys2Proof.Machine
end

section
/-! Decoding and encoding are inverse to each other (spec/30_encoding.md R70 to R78): each row of the opcode map reads
the operand of its format and encodes to its own opcode and that operand. -/

namespace Sys2Proof.Machine

/-! ### Reading the operand -/

theorem withByte_eq_instr_iff {k : Byte → Instr} {bytes rest : List Byte} {i : Instr} :
    withByte k bytes = .instr i rest ↔ ∃ b, k b = i ∧ bytes = b :: rest := by
  cases bytes <;> simp [withByte]

theorem withWord_wordBytes (k : Word → Instr) (w : Word) (rest : List Byte) :
    withWord k (wordBytes w ++ rest) = .instr (k w) rest := by
  simp [wordBytes, withWord]

theorem withWord_eq_instr_iff {k : Word → Instr} {bytes rest : List Byte} {i : Instr} :
    withWord k bytes = .instr i rest ↔ ∃ w, k w = i ∧ bytes = wordBytes w ++ rest := by
  constructor
  · intro h
    match bytes, h with
    | lo :: hi :: tail, h =>
      obtain ⟨rfl, rfl⟩ := Decoded.instr.inj h
      exact ⟨joinLE lo hi, rfl, by simp [wordBytes]⟩
  · rintro ⟨w, rfl, rfl⟩
    exact withWord_wordBytes k w rest

theorem decodeOperand_operandBytes (i : Instr) (rest : List Byte) :
    decodeOperand i.operation (i.operandBytes ++ rest) = .instr i rest := by
  cases i with
  | ldaAbs w | ldaAbsX w | ldaAbsY w | jsr w => exact withWord_wordBytes _ w rest
  | _ => rfl

/-! ### What a mapped opcode decodes and encodes to -/

/-- A mapped opcode begins the instructions of one constructor, with one operand byte or one operand word (R71, R73). -/
theorem lookup_some_cases {op : Byte} {row : OpcodeRow} (h : lookup op = some row) :
    (∃ k : Byte → Instr, row.format = .op8 ∧ (∀ bytes, decode (op :: bytes) = withByte k bytes) ∧
      ∀ b, encode (k b) = [op, b]) ∨
    (∃ k : Word → Instr, row.format = .op16 ∧ (∀ bytes, decode (op :: bytes) = withWord k bytes) ∧
      ∀ w, encode (k w) = op :: wordBytes w) := by
  obtain ⟨hrow, rfl⟩ := lookup_cases op row h
  simp only [opcodeMap, List.mem_cons, List.not_mem_nil, or_false] at hrow
  rcases hrow with rfl | rfl | rfl | rfl | rfl | rfl | rfl | rfl | rfl
  · exact .inl ⟨.ldaImm, rfl, fun _ => rfl, fun _ => rfl⟩
  · exact .inl ⟨.ldaZp, rfl, fun _ => rfl, fun _ => rfl⟩
  · exact .inl ⟨.ldaZpX, rfl, fun _ => rfl, fun _ => rfl⟩
  · exact .inr ⟨.ldaAbs, rfl, fun _ => rfl, fun _ => rfl⟩
  · exact .inr ⟨.ldaAbsX, rfl, fun _ => rfl, fun _ => rfl⟩
  · exact .inr ⟨.ldaAbsY, rfl, fun _ => rfl, fun _ => rfl⟩
  · exact .inl ⟨.ldaIndX, rfl, fun _ => rfl, fun _ => rfl⟩
  · exact .inl ⟨.ldaIndY, rfl, fun _ => rfl, fun _ => rfl⟩
  · exact .inr ⟨.jsr, rfl, fun _ => rfl, fun _ => rfl⟩

theorem decode_eq_unknownOpcode (op : Byte) (rest : List Byte) (h : lookup op = none) :
    decode (op :: rest) = .unknownOpcode op := by
  rw [decode_cons, h]

/-! ### The round trip -/

theorem decode_encode_append (i : Instr) (rest : List Byte) : decode (encode i ++ rest) = .instr i rest := by
  rw [encode, List.cons_append, decode_cons, lookup_opcode]
  exact decodeOperand_operandBytes i rest

theorem eq_encode_append_of_decode {bytes rest : List Byte} {i : Instr} (h : decode bytes = .instr i rest) :
    bytes = encode i ++ rest := by
  cases bytes with
  | nil => cases h
  | cons op tail =>
    cases hrow : lookup op with
    | none => simp [decode_eq_unknownOpcode op tail hrow] at h
    | some row =>
      obtain ⟨k, -, hdecode, hencode⟩ | ⟨k, -, hdecode, hencode⟩ := lookup_some_cases hrow
      · obtain ⟨b, rfl, rfl⟩ := withByte_eq_instr_iff.mp ((hdecode tail).symm.trans h)
        rw [hencode, List.cons_append, List.singleton_append]
      · obtain ⟨w, rfl, rfl⟩ := withWord_eq_instr_iff.mp ((hdecode tail).symm.trans h)
        rw [hencode, List.cons_append]

/-- Settles O35: the map holds the row of an instruction's own opcode, and that row's operand reads back. -/
theorem decodeOfEncode : Obligations.DecodeOfEncode :=
  fun i rest _ => decode_encode_append i rest

/-- Settles O36: the row looked up encodes to the opcode it was found under. -/
theorem encodeOfDecode : Obligations.EncodeOfDecode :=
  fun _ _ _ => eq_encode_append_of_decode

/-! ### The check on bytes -/

theorem wellFormedBytes_encode (i : Instr) : wellFormedBytes (encode i) = true := by
  have hlength : i.format.length = i.operandBytes.length + 1 := by cases i <;> rfl
  simp [wellFormedBytes, encode, lengthOf, lookup_opcode, hlength]

/-- A mapped opcode followed by as many bytes as its format asks is one whole instruction, whatever the bytes (R77). -/
theorem decode_of_wellFormedBytes {bytes : List Byte} (h : wellFormedBytes bytes = true) :
    ∃ i, decode bytes = .instr i [] := by
  cases bytes with
  | nil => cases h
  | cons op tail =>
    obtain ⟨row, hrow, hlength⟩ : ∃ row, lookup op = some row ∧ row.format.length = tail.length + 1 := by
      simpa [wellFormedBytes, lengthOf] using h
    obtain ⟨k, hformat, hdecode, -⟩ | ⟨k, hformat, hdecode, -⟩ := lookup_some_cases hrow
    · obtain ⟨b, rfl⟩ : ∃ b, tail = [b] := by
        rw [hformat] at hlength
        exact List.length_eq_one_iff.mp (Nat.succ.inj hlength).symm
      exact ⟨k b, hdecode [b]⟩
    · obtain ⟨lo, hi, rfl⟩ : ∃ lo hi, tail = [lo, hi] := by
        rw [hformat] at hlength
        exact List.length_eq_two.mp (Nat.succ.inj hlength).symm
      exact ⟨k (joinLE lo hi), hdecode [lo, hi]⟩

/-- Settles O37: the check passes the encodings, which are the strings that decode with nothing left. -/
theorem wellFormedBytesAreTheInstructions : Obligations.WellFormedBytesAreTheInstructions := by
  intro bytes
  refine ⟨decode_of_wellFormedBytes, fun ⟨i, h⟩ => ?_⟩
  rw [eq_encode_append_of_decode h, List.append_nil]
  exact wellFormedBytes_encode i

/-! ### The opcode values -/

/-- Settles O38: `lookup` fails exactly outside the nine values, and the byte values it fails on are counted. -/
theorem unmappedOpcodesRejected : Obligations.UnmappedOpcodesRejected := by
  refine ⟨fun op rest hop => ?_, by decide +kernel⟩
  have hnone : lookup op = none := (lookup_eq_none_iff op).mpr hop
  exact ⟨hnone, decode_eq_unknownOpcode op rest hnone⟩

/-- Settles O39: the eight opcodes are these bytes, whatever the operand. -/
theorem ldaOpcodePattern : Obligations.LdaOpcodePattern :=
  fun _ _ => ⟨rfl, rfl, rfl, rfl, rfl, rfl, rfl, rfl⟩

/-- Settles O40: the five words are encodings, and 0x00 is outside the map. -/
theorem sampleWordsDecode : Obligations.SampleWordsDecode :=
  ⟨decode_encode_append (.ldaImm 0x84) [], decode_encode_append (.ldaZpX 0x80) [0x55],
    decode_encode_append (.ldaAbsY 0x4402) [], decode_encode_append (.ldaIndY 0x20) [],
    decode_encode_append (.jsr 0x9000) [], decode_eq_unknownOpcode 0x00 [0x00, 0x00] rfl⟩

end Sys2Proof.Machine
end

section
/-! The addressing modes (spec/40_addressing_modes.md R100 to R110): when an indexed access crosses a page, where a
zero-page pointer stands, and what each resolver returns, charges and keeps. -/

namespace Sys2Proof.Machine

/-! ### Page crossing -/

theorem pageCross_highByte_iff (base : Word) (idx : Byte) :
    pageCross .highByte base idx = true ↔ hiByte base ≠ hiByte (add16 base idx) := bne_iff_ne

/-- Adding a byte changes the high byte exactly when the low bytes carry, at the top of memory too (R37, R101). -/
theorem hiByte_ne_hiByte_add16_iff (base : Word) (idx : Byte) :
    hiByte base ≠ hiByte (add16 base idx) ↔ 0x100 ≤ base.toNat % 256 + idx.toNat := by
  have hbase : base.toNat < 2 ^ 16 := base.isLt
  have hidx : idx.toNat < 2 ^ 8 := idx.isLt
  rw [ne_eq, ← BitVec.toNat_inj, toNat_hiByte, toNat_hiByte, toNat_add16]
  omega

theorem pageCross_refDiff_iff (base : Word) (idx : Byte) : pageCross .refDiff base idx = true ↔ idx = 0xFF := by
  have hidx : idx.toNat < 2 ^ 8 := idx.isLt
  have hmax : (0xFF : Byte).toNat = 0xFF := rfl
  rw [pageCross, decide_eq_true_iff, ← BitVec.toNat_inj]
  omega

/-- Settles O14: the high bytes differ when the low bytes carry; only 0xFF is a byte of 0xFF or more. -/
theorem pageCrossPredicate : Obligations.PageCrossPredicate := fun base idx =>
  ⟨pageCross_highByte_iff base idx,
    (pageCross_highByte_iff base idx).trans (hiByte_ne_hiByte_add16_iff base idx),
    pageCross_refDiff_iff base idx⟩

/-! ### The zero-page pointer -/

theorem zext16_eq_ofNat (b : Byte) : zext16 b = BitVec.ofNat 16 b.toNat := by
  apply BitVec.eq_of_toNat_eq
  have hb : b.toNat < 2 ^ 8 := b.isLt
  rw [toNat_zext16, BitVec.toNat_ofNat]
  omega

/-- Under `Linear` the high byte of the pointer at 0xFF stands at 0x0100 (R108). -/
theorem ptrHiAddr_linear (zp : Byte) : ptrHiAddr .linear zp = BitVec.ofNat 16 (zp.toNat + 1) := by
  rw [ptrHiAddr, zext16_eq_ofNat, BitVec.ofNat_add]
  rfl

/-- Under `ZpWrap` the high byte of the pointer at 0xFF stands at 0x0000 (R108). -/
theorem ptrHiAddr_zpWrap (zp : Byte) : ptrHiAddr .zpWrap zp = BitVec.ofNat 16 ((zp.toNat + 1) % 256) := by
  have hwrap : (zp + 1).toNat = (zp.toNat + 1) % 256 := BitVec.toNat_add zp 1
  rw [ptrHiAddr, zext16_eq_ofNat, hwrap]

/-- Settles O17: `ReadPtr` joins the bytes at zp and at the high-byte address of its rule. -/
theorem pointerHighByteAddress : Obligations.PointerHighByteAddress := by
  intro cfg s zp
  constructor
  · intro hlinear
    rw [State.readPtr_eq, Memory.pointer, hlinear, ptrHiAddr_linear, zext16_eq_ofNat]
    rfl
  · intro hwrap
    rw [State.readPtr_eq, Memory.pointer, hwrap, ptrHiAddr_zpWrap, zext16_eq_ofNat]
    rfl

/-! ### The resolvers -/

/-- Settles O16: the resolvers' closed forms; the pointer of (Indirect),Y is what `ReadPtr` returns. -/
theorem resolversReturnAddressAndCost : Obligations.ResolversReturnAddressAndCost := by
  intro cfg s b w after penalty ptr
  have hptr : ∀ zp, (s.readPtr cfg zp).1 = s.mem.pointer cfg.zpPtrHi zp := fun zp =>
    congrArg Prod.fst (State.readPtr_eq cfg zp s)
  refine ⟨resolveImm_eq b s, resolveZp_eq b s, resolveZpX_eq b s, resolveAbs_eq w s, resolveAbsX_eq cfg w s,
    resolveAbsY_eq cfg w s, ?_, ?_⟩
  · rw [hptr]
    exact resolveIndX_eq cfg b s
  · rw [show ptr = s.mem.pointer cfg.zpPtrHi b from hptr b]
    exact resolveIndY_eq cfg b s

end Sys2Proof.Machine
end

section
/-! The step at a boundary (spec/41_dispatch_loop.md R131, R133): the instruction it runs is the one whose encoding
stands at PC, and running it is one pass of the loop. -/

namespace Sys2Proof.Machine

theorem State.transition_of_fetchInstr (run : Instr → State → Host.Outcome State Fault Refusal) {s : State}
    {requested cycles : Int} {i : Instr} (hs : s.AtBoundary requested cycles) (hi : s.fetchInstr = some i) :
    s.transition run = run i s := by
  obtain ⟨hfault, hcall, hpos⟩ := hs
  rw [State.transition_budget run s requested cycles hfault hcall hpos, State.runInstruction_of_some run s i hi]

/-- Settles O41: the step at a boundary runs the instruction that `fetchInstr` reads from the window. -/
theorem stepRunsDecodedInstruction : Obligations.StepRunsDecodedInstruction := fun s _ _ i rest hs hdecode =>
  State.transition_of_fetchInstr exec hs (s.fetchInstr_of_decode i rest hdecode)

/-! ### An encoding in memory -/

theorem encode_length_le_three (i : Instr) : (encode i).length ≤ 3 := by
  cases i <;> simp [encode, Instr.operandBytes, wordBytes]

theorem State.window_getElem (s : State) (k : Nat) (hk : k < s.window.length) :
    s.window[k] = s.mem.read (s.pc + BitVec.ofNat 16 k) := by
  match k, hk with
  | 0, _ => simp [State.window]
  | 1, _ => rfl
  | 2, _ => simp [State.window, inc16]

/-- Where memory holds an encoding from PC on, the window begins with it. -/
theorem State.encode_prefix_window {s : State} {i : Instr}
    (h : ∀ k (hk : k < (encode i).length), s.mem.read (s.pc + BitVec.ofNat 16 k) = (encode i)[k]) :
    encode i <+: s.window :=
  List.prefix_iff_getElem.mpr
    ⟨encode_length_le_three i, fun k hk => by rw [State.window_getElem, h k hk]⟩

/-- Settles O42: the window is the encoding and some bytes after it, which decodes to the instruction. -/
theorem stepRunsEncodedInstruction : Obligations.StepRunsEncodedInstruction := by
  intro s requested cycles i hs hmem
  obtain ⟨rest, hwindow⟩ := State.encode_prefix_window hmem
  refine stepRunsDecodedInstruction s requested cycles i rest hs ?_
  rw [← hwindow]
  exact decode_encode_append i rest

/-- Settles O47: `step` is `stepIn` under the default configuration. -/
theorem stepIsFetchLoopIteration : Obligations.StepIsFetchLoopIteration := by
  intro s requested cycles hs
  rw [← stepIn_config]
  exact configuredStepIsFetchLoopIteration.1 config s requested cycles hs

/-! ### A table word placed at PC -/

theorem decodeTableWord_eq_some_iff {nbits w : Nat} {i : Instr} :
    decodeTableWord nbits w = some i ↔ ∃ rest, decode (tableBytes nbits w) = .instr i rest := by
  unfold decodeTableWord
  cases decode (tableBytes nbits w) <;> simp

theorem Call.withBudget_eq_running (c : Call) :
    ∃ requested cycles, c.withBudget = .running requested cycles ∧ 0 < cycles := by
  cases c with
  | running requested cycles =>
    by_cases hpos : 0 < cycles
    · exact ⟨requested, cycles, if_pos hpos, hpos⟩
    · exact ⟨1, 1, if_neg hpos, Int.one_pos⟩
  | idle => exact ⟨1, 1, rfl, Int.one_pos⟩
  | returned r => exact ⟨1, 1, rfl, Int.one_pos⟩

theorem State.withFetchWord_atBoundary (s : State) (nbits w : Nat) :
    ∃ requested cycles, (s.withFetchWord nbits w).AtBoundary requested cycles := by
  obtain ⟨requested, cycles, hcall, hpos⟩ := s.call.withBudget_eq_running
  exact ⟨requested, cycles, rfl, hcall, hpos⟩

/-- Three bytes written from an address on stand there, at the top of memory too: the three addresses differ. -/
theorem Memory.read_writeAll_three (m : Memory) (a : Word) (b₀ b₁ b₂ : Byte) :
    (m.writeAll a [b₀, b₁, b₂]).read a = b₀ ∧ (m.writeAll a [b₀, b₁, b₂]).read (inc16 a) = b₁ ∧
      (m.writeAll a [b₀, b₁, b₂]).read (inc16 (inc16 a)) = b₂ := by
  have h₁ (x : Word) : x ≠ inc16 x := (word_succ_ne x).symm
  have h₂ : a ≠ inc16 (inc16 a) := by unfold inc16; bv_omega
  simp [Memory.writeAll, Memory.read_write, h₁, h₂]

theorem State.withFetchWord_window (s : State) (nbits w : Nat) :
    (s.withFetchWord nbits w).window = tableBytes nbits w := by
  obtain ⟨h₀, h₁, h₂⟩ := s.mem.read_writeAll_three s.pc (BitVec.ofNat 8 (w % 2 ^ nbits))
    (BitVec.ofNat 8 (w % 2 ^ nbits / 2 ^ 8)) (BitVec.ofNat 8 (w % 2 ^ nbits / 2 ^ 16))
  simp only [State.window, State.withFetchWord, tableBytes, h₀, h₁, h₂]

/-- Settles O50: the placed state is at a boundary, and its window is the table word's bytes. -/
theorem fetchWordRunsNext : Obligations.FetchWordRunsNext := by
  intro s nbits w i hword
  obtain ⟨requested, cycles, hs⟩ := s.withFetchWord_atBoundary nbits w
  obtain ⟨rest, hdecode⟩ := decodeTableWord_eq_some_iff.mp hword
  rw [← s.withFetchWord_window] at hdecode
  exact stepRunsDecodedInstruction _ requested cycles i rest hs hdecode

end Sys2Proof.Machine
end

section
/-! Whole calls (spec/41_dispatch_loop.md R131 to R139). A call is described without fuel, as the loop's passes one
after another up to its return; every call has such a description, and `execute` answers the state it ends in. -/

namespace Sys2Proof.Machine

/-! ### What an instruction does besides its call -/

theorem execIn_completes (cfg : Config) (i : Instr) (s : State) : ∃ t, execIn cfg i s = .next t := by
  cases i <;> exact ⟨_, rfl⟩

theorem cycleCost_pos (cfg : Config) (s : State) (i : Instr) : 0 < cycleCost cfg s i := by
  cases i <;> simp [cycleCost]

theorem loadedByte_of_other_call (cfg : Config) (s : State) (i : Instr) (c : Call) :
    loadedByte cfg { s with call := c } i = loadedByte cfg s i := by
  cases i <;> rfl

theorem cycleCost_of_other_call (cfg : Config) (s : State) (i : Instr) (c : Call) :
    cycleCost cfg { s with call := c } i = cycleCost cfg s i := by
  cases i <;> rfl

/-- An instruction does the same in any call, and charges that one (R132). -/
theorem execIn_of_other_call {cfg : Config} {s t : State} {i : Instr} (h : execIn cfg i s = .next t) (c : Call) :
    execIn cfg i { s with call := c } = .next { t with call := c.charge (cycleCost cfg s i) } := by
  obtain ⟨v, hv, rfl⟩ | ⟨target, rfl, rfl⟩ := execIn_next_cases h
  · rw [execIn_of_loadedByte cfg _ i v ((loadedByte_of_other_call cfg s i c).trans hv), State.afterLda,
      cycleCost_of_other_call]
    rfl
  · exact execIn_jsr cfg _ target

/-! ### The loop without fuel -/

/-- The state an unknown opcode at PC leaves (spec/60_exceptions.md R180 to R182). -/
def State.afterUnknown (s : State) : State :=
  { s with
    pc := s.pc + 1
    fault := some ⟨s.mem.read s.pc, s.pc⟩
    call := .returned (.fault (s.mem.read s.pc) s.pc) }

/-- The call that runs in the first state returns in the second (R131). -/
inductive CallEnds (cfg : Config) : State → State → Prop where
  | exhausted {s : State} {requested cycles : Int} (hfault : s.fault = none)
      (hcall : s.call = .running requested cycles) (hle : cycles ≤ 0) :
      CallEnds cfg s { s with call := .returned (.used (requested - cycles)) }
  | unknown {s : State} {requested cycles : Int} (hs : s.AtBoundary requested cycles)
      (hi : s.fetchInstr = none) : CallEnds cfg s s.afterUnknown
  | pass {s t u : State} {requested cycles : Int} {i : Instr} (hs : s.AtBoundary requested cycles)
      (hi : s.fetchInstr = some i) (hrun : execIn cfg i s = .next t) (hrest : CallEnds cfg t u) : CallEnds cfg s u

theorem execIn_charges_running {cfg : Config} {s t : State} {i : Instr} {requested cycles : Int}
    (h : execIn cfg i s = .next t) (hcall : s.call = .running requested cycles) :
    t.call = .running requested (cycles - cycleCost cfg s i) := by
  rw [execIn_charges_cycleCost h, hcall, Call.charge_running]

/-- Every call returns: each pass takes at least one cycle off the budget (R139). -/
theorem exists_callEnds (cfg : Config) {s : State} {requested cycles : Int} (hfault : s.fault = none)
    (hcall : s.call = .running requested cycles) : ∃ u, CallEnds cfg s u := by
  by_cases hpos : 0 < cycles
  · cases hi : s.fetchInstr with
    | none => exact ⟨_, .unknown ⟨hfault, hcall, hpos⟩ hi⟩
    | some i =>
      obtain ⟨t, hrun⟩ := execIn_completes cfg i s
      have hcost := cycleCost_pos cfg s i
      obtain ⟨u, hrest⟩ :=
        exists_callEnds cfg ((execIn_keeps_fault hrun).trans hfault) (execIn_charges_running hrun hcall)
      exact ⟨u, .pass ⟨hfault, hcall, hpos⟩ hi hrun hrest⟩
  · exact ⟨_, .exhausted hfault hcall (Int.not_lt.mp hpos)⟩
termination_by cycles.toNat
decreasing_by omega

/-! ### What a call returns -/

section
variable {cfg : Config} {s u : State} (h : CallEnds cfg s u)
include h

theorem CallEnds.returned :
    (∃ n, u.call = .returned (.used n) ∧ u.fault = none) ∨
    (∃ op pc, u.call = .returned (.fault op pc) ∧ u.fault = some ⟨op, pc⟩) := by
  induction h with
  | exhausted hfault _ _ => exact .inl ⟨_, rfl, hfault⟩
  | unknown _ _ => exact .inr ⟨_, _, rfl, rfl⟩
  | pass _ _ _ _ ih => exact ih

/-- The last instruction starts with a cycle left and costs at most six, so the budget ends at -5 or above (R136). -/
theorem CallEnds.used_bounds {requested cycles n : Int} (hcall : s.call = .running requested cycles)
    (hle : -5 ≤ cycles) (hused : u.call = .returned (.used n)) : requested ≤ n ∧ n ≤ requested + 5 := by
  induction h generalizing cycles with
  | exhausted _ hcall' hdone =>
    cases hcall.symm.trans hcall'
    cases hused
    omega
  | unknown _ _ => cases hused
  | @pass s _ _ _ _ i hs hi hrun _ ih =>
    obtain ⟨-, hcall', hpos⟩ := hs
    cases hcall.symm.trans hcall'
    have hcost := cycleCost_le_six cfg s i
    exact ih (execIn_charges_running hrun hcall) (by omega) hused

end

/-! ### The run of steps -/

theorem State.runCall_of_returned (cfg : Config) {s : State} {r : CallResult} (hcall : s.call = .returned r)
    (fuel : Nat) : s.runCall cfg fuel = .next s := by
  cases fuel with
  | zero => rfl
  | succ fuel => simp [State.runCall, hcall]

theorem State.runCall_succ {cfg : Config} {s t : State} {requested cycles : Int}
    (hcall : s.call = .running requested cycles) (hstep : stepIn cfg s = .next t) (fuel : Nat) :
    s.runCall cfg (fuel + 1) = t.runCall cfg fuel := by
  simp [State.runCall, hcall, hstep]

theorem stepIn_of_unknown (cfg : Config) {s : State} {requested cycles : Int} (hs : s.AtBoundary requested cycles)
    (hi : s.fetchInstr = none) : stepIn cfg s = .next s.afterUnknown := by
  obtain ⟨hfault, hcall, hpos⟩ := hs
  exact (State.transition_budget _ s requested cycles hfault hcall hpos).trans (State.runInstruction_of_none _ s hi)

/-- Fuel above the budget is enough: each pass takes one unit of fuel and at least one cycle, the return one unit. -/
theorem CallEnds.runCall_eq {cfg : Config} {s u : State} (h : CallEnds cfg s u) {requested cycles : Int} {fuel : Nat}
    (hcall : s.call = .running requested cycles) (hfuel : cycles.toNat < fuel) : s.runCall cfg fuel = .next u := by
  obtain ⟨fuel, rfl⟩ := Nat.exists_eq_succ_of_ne_zero (Nat.ne_zero_of_lt hfuel)
  induction h generalizing cycles fuel with
  | exhausted hfault hcall' hle =>
    rw [State.runCall_succ hcall' (State.transition_exhausted _ _ _ _ hfault hcall' hle)]
    exact State.runCall_of_returned cfg rfl fuel
  | unknown hs hi =>
    rw [State.runCall_succ hcall (stepIn_of_unknown cfg hs hi)]
    exact State.runCall_of_returned cfg rfl fuel
  | @pass s _ _ _ _ i hs hi hrun _ ih =>
    rw [State.runCall_succ hcall ((State.transition_of_fetchInstr _ hs hi).trans hrun)]
    obtain ⟨-, hcall', hpos⟩ := hs
    cases hcall.symm.trans hcall'
    have hcost := cycleCost_pos cfg s i
    obtain ⟨fuel, rfl⟩ := Nat.exists_eq_succ_of_ne_zero (show fuel ≠ 0 by omega)
    exact ih (execIn_charges_running hrun hcall) fuel (by omega)

/-! ### `execute` as the host sees it -/

/-- The state in which the call begins (R131). -/
def State.calling (s : State) (requested : Int) : State := { s with call := .running requested requested }

theorem State.host_of_idle (cfg : Config) {s : State} (hs : s.Idle) (op : HostOp) :
    s.host cfg op = s.hostIdle cfg op := by
  unfold State.host
  cases hcall : s.call with
  | running requested cycles => exact absurd hcall (hs requested cycles)
  | idle => rfl
  | returned r => rfl

theorem State.execute_of_faulted (cfg : Config) {s : State} {r : FaultRecord} (hs : s.Idle) (hr : s.fault = some r)
    (requested : Int) : s.execute cfg requested = .next { s with call := .returned (.fault r.op r.pc) } := by
  have hbegin : s.host cfg (.execute requested) = .next { s with call := .returned (.fault r.op r.pc) } := by
    simp [State.host_of_idle cfg hs, State.hostIdle, State.beginExecute, hr]
  rw [State.execute, hbegin]
  exact State.runCall_of_returned cfg rfl _

theorem State.execute_eq_of_callEnds {cfg : Config} {s u : State} {requested : Int} (hs : s.Idle)
    (hfault : s.fault = none) (hfits : requestFits cfg requested = true)
    (h : CallEnds cfg (s.calling requested) u) : s.execute cfg requested = .next u := by
  have hbegin : s.host cfg (.execute requested) = .next (s.calling requested) := by
    simp [State.host_of_idle cfg hs, State.hostIdle, State.beginExecute, hfault, hfits, State.calling]
  rw [State.execute, hbegin]
  exact h.runCall_eq rfl (Nat.lt_succ_self _)

/-- Settles O45: at such a boundary the step returns, and a request of 0 or less begins at one, all of it left. -/
theorem exhaustedBudgetReturnsCyclesUsed : Obligations.ExhaustedBudgetReturnsCyclesUsed := by
  intro s requested cycles hfault
  refine ⟨State.transition_exhausted exec s requested cycles hfault, fun hs hle => ?_⟩
  have hends : CallEnds config (s.calling requested) _ := .exhausted hfault rfl hle
  rw [State.execute_eq_of_callEnds hs hfault rfl hends, Int.sub_self]
  rfl

/-- Settles O51: a faulted core reports its record, and any other call ends. -/
theorem executeAlwaysReturns : Obligations.ExecuteAlwaysReturns := by
  intro s requested hs
  cases hfault : s.fault with
  | some r => exact ⟨_, State.execute_of_faulted config hs hfault requested, .inr ⟨_, _, rfl, hfault⟩⟩
  | none =>
    obtain ⟨u, hends⟩ := exists_callEnds config (s := s.calling requested) hfault rfl
    exact ⟨u, State.execute_eq_of_callEnds hs hfault rfl hends, hends.returned⟩

/-- Settles O52: `execute` answers the state the call ends in, and a positive budget begins above -5. -/
theorem overshootAtMostFive : Obligations.OvershootAtMostFive := by
  intro s t requested n hs hfault hpos hexecute hused
  obtain ⟨u, hends⟩ := exists_callEnds config (s := s.calling requested) hfault rfl
  cases hexecute.symm.trans (State.execute_eq_of_callEnds hs hfault rfl hends)
  exact hends.used_bounds rfl (by omega) hused

/-! ### A call and the call for its rest -/

/-- A call with `k` cycles more used before, or a result with `k` cycles more. -/
def Call.addUsed (k : Int) : Call → Call
  | .running requested cycles => .running (requested + k) cycles
  | .returned (.used n) => .returned (.used (n + k))
  | .returned (.fault op pc) => .returned (.fault op pc)
  | .idle => .idle

/-- The state with `k` cycles more used before in its call. -/
def State.addUsed (k : Int) (s : State) : State := { s with call := s.call.addUsed k }

theorem Call.addUsed_charge (k : Int) (c : Call) (n : Nat) : (c.addUsed k).charge n = (c.charge n).addUsed k := by
  rcases c with _ | _ | ⟨_ | _⟩ <;> rfl

theorem execIn_addUsed {cfg : Config} {s t : State} {i : Instr} (h : execIn cfg i s = .next t) (k : Int) :
    execIn cfg i (s.addUsed k) = .next (t.addUsed k) := by
  rw [State.addUsed, execIn_of_other_call h, Call.addUsed_charge, ← execIn_charges_cycleCost h]
  rfl

theorem State.AtBoundary.addUsed {s : State} {requested cycles : Int} (hs : s.AtBoundary requested cycles) (k : Int) :
    (s.addUsed k).AtBoundary (requested + k) cycles := by
  obtain ⟨hfault, hcall, hpos⟩ := hs
  exact ⟨hfault, congrArg (Call.addUsed k) hcall, hpos⟩

/-- The passes of a call depend on its budget alone; the cycles used before only add to its result. -/
theorem CallEnds.addUsed {cfg : Config} {s u : State} (h : CallEnds cfg s u) (k : Int) :
    CallEnds cfg (s.addUsed k) (u.addUsed k) := by
  induction h with
  | @exhausted s requested cycles hfault hcall hle =>
    have hends : CallEnds cfg (s.addUsed k) _ := .exhausted hfault (congrArg (Call.addUsed k) hcall) hle
    rwa [show requested + k - cycles = requested - cycles + k by omega] at hends
  | unknown hs hi => exact .unknown (hs.addUsed k) hi
  | pass hs hi hrun _ ih => exact .pass (hs.addUsed k) hi (execIn_addUsed hrun k) ih

/-- What the first pass leaves of a request, a 32-bit counter serves too: at least -5 (R136, U8). -/
theorem requestFits_rest {cfg : Config} {requested : Int} (hpos : 0 < requested)
    (hfits : requestFits cfg requested = true) (s : State) (i : Instr) :
    requestFits cfg (requested - cycleCost cfg s i) = true := by
  have hcost := cycleCost_le_six cfg s i
  cases hwidth : cfg.cycleCounter with
  | unbounded => simp [requestFits, hwidth]
  | signed32 =>
    simp only [requestFits, hwidth, Bool.and_eq_true, decide_eq_true_eq] at hfits ⊢
    omega

/-- The call for the rest of the request, with `k` cycles used before it, is the call that goes on (R134). -/
theorem State.addUsed_calling_rest {t : State} {requested k : Int}
    (hcall : t.call = .running requested (requested - k)) :
    (State.calling { t with call := .idle } (requested - k)).addUsed k = t := by
  simp [State.addUsed, State.calling, Call.addUsed, ← hcall]

/-- After an instruction, the call goes on as the call for the rest, the instruction's cost used before it. -/
theorem CallEnds.of_rest {cfg : Config} {s t u : State} {i : Instr} {requested : Int}
    (hs : s.AtBoundary requested requested) (hi : s.fetchInstr = some i) (hrun : execIn cfg i s = .next t)
    (hrest : CallEnds cfg (State.calling { t with call := .idle } (requested - cycleCost cfg s i)) u) :
    CallEnds cfg s (u.addUsed (cycleCost cfg s i)) := by
  have hgoesOn := hrest.addUsed (cycleCost cfg s i)
  have ⟨_, hcall, _⟩ := hs
  rw [State.addUsed_calling_rest (execIn_charges_running hrun hcall)] at hgoesOn
  exact .pass hs hi hrun hgoesOn

/-- Settles O60: the rest of the call ends as the call for the rest does, and a returned result differs by the first
instruction's cost. -/
theorem executeIsPassThenRest : Obligations.ExecuteIsPassThenRest := by
  intro cfg s requested hs hfault hpos hfits pass
  have hbound : (s.calling requested).AtBoundary requested requested := ⟨hfault, rfl, hpos⟩
  have hpass : (s.calling requested).runInstruction (execIn cfg) = .next pass :=
    State.runInstruction_execIn cfg (s.calling requested) []
  refine ⟨fun i hi => ?_, fun hi => ?_⟩
  · rw [← cycleCost_of_other_call cfg s i (.running requested requested)]
    have hrun : execIn cfg i (s.calling requested) = .next pass :=
      (State.runInstruction_of_some _ (s.calling requested) i hi).symm.trans hpass
    have hpassfault : pass.fault = none := (execIn_keeps_fault hrun).trans hfault
    obtain ⟨u, hrest⟩ := exists_callEnds cfg hpassfault
      (s := State.calling { pass with call := .idle } (requested - cycleCost cfg (s.calling requested) i)) rfl
    refine ⟨u, State.execute_eq_of_callEnds (fun _ _ h => nomatch h) hpassfault
      (requestFits_rest hpos hfits _ i) hrest, ?_⟩
    rw [State.execute_eq_of_callEnds hs hfault hfits (.of_rest hbound hi hrun hrest), State.addUsed]
    obtain ⟨n, hu, -⟩ | ⟨op, pc, hu, -⟩ := hrest.returned
    · simp only [hu, Call.addUsed, State.calling]
    · simp only [hu, Call.addUsed]
  · have hunknown : State.afterUnknown (s.calling requested) = pass :=
      Host.Outcome.next.inj ((State.runInstruction_of_none _ (s.calling requested) hi).symm.trans hpass)
    exact State.execute_eq_of_callEnds hs hfault hfits (hunknown ▸ .unknown hbound hi)

end Sys2Proof.Machine
end

section
/-! The load-accumulator family (spec/42_load_lda.md R151 to R159): each mode is the one closed form of a load, with the
byte it loads and the cycles it costs. -/

namespace Sys2Proof.Machine

/-- Any load of the default configuration, from the byte it loads and its cost (R150, R222). -/
theorem exec_of_loadedByte {s : State} {i : Instr} {v : Byte} {n : Nat} (hv : loadedByte config s i = some v)
    (hcost : cycleCost config s i = n) :
    exec i s = .next { s with
      pc := s.pc + BitVec.ofNat 16 i.format.length
      a := v
      flags := { s.flags with z := v == 0x00, n := v.getLsbD 7 }
      call := s.call.charge n } := by
  subst hcost
  rw [← execIn_config]
  exact execIn_of_loadedByte config s i v hv

/-- A cost with the page-cross cycle of `HighByte`, the cycle paid where the high byte changes (R101). -/
theorem add_pageCrossCost_highByte (n : Nat) (base : Word) (idx : Byte) :
    n + pageCrossCost .highByte base idx =
      if base.extractLsb' 8 8 = (base + idx.setWidth 16).extractLsb' 8 8 then n else n + 1 := by
  have hcross : pageCross .highByte base idx = true ↔
      base.extractLsb' 8 8 ≠ (base + idx.setWidth 16).extractLsb' 8 8 := pageCross_highByte_iff base idx
  by_cases hpage : base.extractLsb' 8 8 = (base + idx.setWidth 16).extractLsb' 8 8
  · rw [if_pos hpage, pageCrossCost, if_neg (fun h => hcross.mp h hpage), Nat.add_zero]
  · rw [if_neg hpage, pageCrossCost, if_pos (hcross.mpr hpage)]

/-- Settles O26: a load leaves `State.afterLda`, which writes A, Z, N, PC and the budget only. -/
theorem ldaFrame : Obligations.LdaFrame := by
  intro i s hlda
  obtain ⟨v, hv⟩ := (isLda_iff_loadedByte config s i).mp hlda
  have hexec := exec_of_loadedByte hv rfl
  refine ⟨_, hexec, fun t' ht' => ?_, rfl, rfl, rfl, rfl, rfl, fun _ => rfl, rfl, rfl, rfl⟩
  exact Host.Outcome.next.inj (ht'.symm.trans hexec)

/-- Settles O18: the operand is loaded. -/
theorem ldaImmediateResult : Obligations.LdaImmediateResult := fun _ _ =>
  ⟨rfl, exec_of_loadedByte rfl rfl⟩

/-- Settles O19: the byte at the zero-page address is loaded. -/
theorem ldaZeroPageResult : Obligations.LdaZeroPageResult := fun _ _ =>
  ⟨rfl, exec_of_loadedByte rfl rfl⟩

/-- Settles O20: the byte at the indexed zero-page address is loaded. -/
theorem ldaZeroPageXResult : Obligations.LdaZeroPageXResult := fun _ _ =>
  ⟨rfl, exec_of_loadedByte rfl rfl⟩

/-- Settles O21: the byte at the operand word is loaded. -/
theorem ldaAbsoluteResult : Obligations.LdaAbsoluteResult := fun _ _ =>
  ⟨rfl, exec_of_loadedByte rfl rfl⟩

/-- Settles O22: the base indexed by X is loaded from, the page cross paid. -/
theorem ldaAbsoluteXResult : Obligations.LdaAbsoluteXResult := fun w s =>
  ⟨rfl, exec_of_loadedByte rfl (add_pageCrossCost_highByte 4 w s.x)⟩

/-- Settles O23: the base indexed by Y is loaded from, the page cross paid. -/
theorem ldaAbsoluteYResult : Obligations.LdaAbsoluteYResult := fun w s =>
  ⟨rfl, exec_of_loadedByte rfl (add_pageCrossCost_highByte 4 w s.y)⟩

/-- Settles O24: the linear pointer at the indexed zero-page address is loaded from. -/
theorem ldaIndirectXResult : Obligations.LdaIndirectXResult := fun _ _ =>
  ⟨rfl, exec_of_loadedByte rfl rfl⟩

/-- Settles O25: the linear pointer indexed by Y is loaded from, the page cross paid. -/
theorem ldaIndirectYResult : Obligations.LdaIndirectYResult := fun b s =>
  ⟨rfl, exec_of_loadedByte rfl (add_pageCrossCost_highByte 5 (s.mem.pointer .linear b) s.y)⟩

end Sys2Proof.Machine
end

section
/-! JSR (spec/43_control_jsr.md R170 to R173): its one closed form, what memory reads as after the push, and where a
chain of calls has brought the stack. -/

namespace Sys2Proof.Machine

theorem exec_jsr (target : Word) (s : State) : exec (.jsr target) s = .next (s.afterJsr target) := by
  rw [← execIn_config]
  exact execIn_jsr config s target

/-- Settles O28: the closed form writes the two bytes of PC + 2 as the statement does. -/
theorem jsrResult : Obligations.JsrResult := fun target s => ⟨rfl, exec_jsr target s⟩

/-! ### Memory after the push -/

theorem State.afterJsr_read_lo (s : State) (target : Word) :
    (s.afterJsr target).mem.read (stackAddr s.sp) = loByte (s.pc + 2) :=
  s.write16_read_lo (stackAddr s.sp) (s.pc + 2)

theorem State.afterJsr_read_hi (s : State) (target : Word) :
    (s.afterJsr target).mem.read (stackAddr s.sp + 1) = hiByte (s.pc + 2) :=
  s.write16_read_hi (stackAddr s.sp) (s.pc + 2)

theorem State.afterJsr_read_other (s : State) (target : Word) {b : Word} (hlo : b ≠ stackAddr s.sp)
    (hhi : b ≠ stackAddr s.sp + 1) : (s.afterJsr target).mem.read b = s.mem.read b :=
  s.write16_read_other (s.pc + 2) hlo hhi

/-- Settles O30: the two bytes aside, the closed form updates PC, SP and the call only. -/
theorem jsrFrame : Obligations.JsrFrame := by
  intro target s
  refine ⟨_, exec_jsr target s, ?_, rfl, rfl, rfl, rfl, rfl⟩
  rintro _ rfl b hlo hhi
  exact s.afterJsr_read_other target hlo hhi

/-- The operand fetch of a word instruction, from the boundary (R45, R133). -/
theorem State.opcodeFetched_fetch16 (s : State) :
    s.opcodeFetched.fetch16 = (joinLE (s.mem.read (s.pc + 1)) (s.mem.read (s.pc + 2)),
      { s with pc := s.pc + 3, call := s.call.charge 3 }) := by
  simp [State.opcodeFetched_eq, State.fetch16_eq]

/-- Settles O29: the pushed bytes read back; at 0xFFFE the operand fetch and PC + 2 wrap. -/
theorem jsrPushesReturnAddress : Obligations.JsrPushesReturnAddress := by
  intro target s requested cycles hcall
  have hlo := s.afterJsr_read_lo target
  have hhi := s.afterJsr_read_hi target
  refine ⟨_, exec_jsr target s, rfl, rfl, congrArg (Call.charge 6) hcall, hlo, hhi, fun hpc => ?_⟩
  have hlast : s.pc + 1 = 0xFFFF := by rw [hpc]; rfl
  have hret : s.pc + 2 = 0x0000 := by rw [hpc]; rfl
  have hnext : s.pc + 3 = 0x0001 := by rw [hpc]; rfl
  rw [State.opcodeFetched_fetch16, hlo, hhi, hlast, hret, hnext]
  exact ⟨rfl, rfl, rfl, rfl⟩

/-- Settles O32: the target's byte by where it stands against the pushed word; an unmapped one is what the next step
takes the fault on. -/
theorem jsrTargetFetchedAfterPush : Obligations.JsrTargetFetchedAfterPush := by
  intro target s t requested cycles hexec hbound
  cases (exec_jsr target s).symm.trans hexec
  refine ⟨?_, rfl, fun hunmapped => ⟨(s.afterJsr target).afterUnknown, ?_, rfl⟩⟩
  · split
    next hlo => exact hlo ▸ s.afterJsr_read_lo target
    next hlo =>
      split
      next hhi => exact hhi ▸ s.afterJsr_read_hi target
      next hhi => exact s.afterJsr_read_other target hlo hhi
  · rw [← stepIn_config]
    exact stepIn_of_unknown config hbound ((State.fetchInstr_eq_none_iff _).mpr hunmapped)

/-! ### A chain of calls -/

/-- The state a chain of calls leaves, each made at the target of the one before. -/
def State.afterCalls (s : State) (targets : List Word) : State := targets.foldl State.afterJsr s

theorem execAll_jsr (targets : List Word) (s : State) :
    execAll (targets.map .jsr) s = .next (s.afterCalls targets) := by
  induction targets generalizing s with
  | nil => rfl
  | cons target targets ih =>
    rw [List.map_cons, execAll, exec_jsr]
    exact ih (s.afterJsr target)

/-- SP grows by 2 a call, mod 2^16 (R172, R27). -/
theorem State.afterCalls_sp (s : State) (targets : List Word) :
    (s.afterCalls targets).sp = s.sp + BitVec.ofNat 16 (2 * targets.length) := by
  induction targets generalizing s with
  | nil => exact (BitVec.add_zero s.sp).symm
  | cons target targets ih =>
    calc (s.afterCalls (target :: targets)).sp
        = s.sp + 2 + BitVec.ofNat 16 (2 * targets.length) := ih (s.afterJsr target)
      _ = s.sp + BitVec.ofNat 16 (2 * (target :: targets).length) := by
          rw [BitVec.add_assoc, List.length_cons, Nat.mul_succ, Nat.add_comm, BitVec.ofNat_add]
          rfl

/-- The stack address reads SP mod 256, which the wrap of SP mod 2^16 leaves alone (R26, R172). -/
theorem toNat_stackAddr_add_ofNat (sp : Word) (n : Nat) :
    (stackAddr (sp + BitVec.ofNat 16 n)).toNat = 0x0100 + (sp.toNat + n) % 256 := by
  rw [toNat_stackAddr, BitVec.toNat_add, BitVec.toNat_ofNat]
  omega

/-- The top of page 1 (D4). -/
theorem stackAddr_of_loByte_eq_max {sp : Word} (h : sp.extractLsb' 0 8 = 0xFF) : stackAddr sp = 0x01FF := by
  rw [stackAddr, h]
  rfl

/-- Settles O31: the chain of `n` calls leaves SP + 2n, whose low byte alone places the next word. -/
theorem stackGrowsUpAndWrapsInPageOne : Obligations.StackGrowsUpAndWrapsInPageOne := by
  intro targets target s
  have hsp := s.afterCalls_sp targets
  have hlo := (s.afterCalls targets).afterJsr_read_lo target
  have hhi := (s.afterCalls targets).afterJsr_read_hi target
  refine ⟨_, _, execAll_jsr targets s, exec_jsr target _, hsp, rfl, fun at0 hat0 => ?_, fun hmax => ?_⟩
  · have hstack : at0 = stackAddr (s.afterCalls targets).sp := by
      apply BitVec.eq_of_toNat_eq
      rw [hat0, hsp, toNat_stackAddr_add_ofNat]
    subst hstack
    exact ⟨hlo, hhi, fun b => State.afterJsr_read_other _ target⟩
  · rw [stackAddr_of_loByte_eq_max hmax] at hlo hhi
    exact ⟨hlo, hhi⟩

end Sys2Proof.Machine
end

section
/-! The fault and the idle core (spec/60_exceptions.md R180 to R197): no instruction faults, an unknown opcode does and
only reset clears its record, an idle core keeps its state, and `execute(1)` runs one instruction. -/

namespace Sys2Proof.Machine

/-! ### Where the fault record changes -/

/-- Settles O33: every instruction completes, and what it leaves has the fault record it started from. -/
theorem everyInstructionCompletes : Obligations.EveryInstructionCompletes := by
  intro i s
  obtain ⟨t, hrun⟩ := execIn_completes config i s
  exact ⟨t, (execIn_config i s).symm.trans hrun, execIn_keeps_fault hrun⟩

/-- Settles O43: `step` is `stepIn` under the default configuration, and the window decodes to nothing exactly when its
opcode is unmapped. -/
theorem unknownOpcodeRecordsFault : Obligations.UnknownOpcodeRecordsFault := by
  intro s requested cycles hs hunmapped
  rw [← stepIn_config]
  exact stepIn_of_unknown config hs ((State.fetchInstr_eq_none_iff s).mpr hunmapped)

/-- Of the host's operations only the two resets touch the fault record (R190, R214). -/
theorem State.host_keeps_fault {cfg : Config} {s t : State} {op : HostOp} (h : s.host cfg op = .next t)
    (hreset : op ≠ .reset) (hresetTo : ∀ vector, op ≠ .resetTo vector) : t.fault = s.fault := by
  have hidle := State.host_next h
  cases op with
  | reset => exact absurd rfl hreset
  | resetTo vector => exact absurd rfl (hresetTo vector)
  | execute requested => obtain ⟨_, _, rfl⟩ | ⟨_, rfl⟩ := State.beginExecute_next_cases hidle <;> rfl
  | writeByte addr value => cases hidle; rfl
  | writeReg8 r value => cases hidle; cases r <;> rfl
  | writeReg16 r value => cases hidle; cases r <;> rfl
  | writeFlag f value => cases hidle; rfl

/-- Settles O44: a transition stops at the record, `execute` reports it, and the host's writes and calls keep it. -/
theorem faultedCoreStaysFaulted : Obligations.FaultedCoreStaysFaulted := fun cfg s r hr =>
  ⟨State.transition_faulted exec s r hr,
   fun hs => State.execute_of_faulted cfg hs hr,
   fun _ _ hop hreset hresetTo => (State.host_keeps_fault hop hreset hresetTo).trans hr⟩

/-! ### The idle core, and the call of one instruction -/

/-- Settles O46: a transition between calls is a wait. -/
theorem idleStepKeepsAllState : Obligations.IdleStepKeepsAllState := State.transition_waiting exec

/-- A budget of one cycle ends with the first instruction, since each costs at least one (R134, R196). -/
theorem CallEnds.of_one {cfg : Config} {s t : State} {i : Instr} (hfault : s.fault = none)
    (hi : s.fetchInstr = some i) (hrun : execIn cfg i (s.calling 1) = .next t) :
    CallEnds cfg (s.calling 1) { t with call := .returned (.used (cycleCost cfg s i)) } := by
  have hcost := cycleCost_pos cfg s i
  have hcall : t.call = .running 1 (1 - cycleCost cfg s i) := by
    rw [execIn_charges_running hrun rfl, State.calling, cycleCost_of_other_call]
  have hends := CallEnds.exhausted (cfg := cfg) ((execIn_keeps_fault hrun).trans hfault) hcall (by omega)
  rw [Int.sub_sub_self] at hends
  exact .pass ⟨hfault, rfl, Int.one_pos⟩ hi hrun hends

/-- Settles O53: `execute` answers the state its call ends in, which is the one the first instruction leaves. -/
theorem executeOneRunsOneInstruction : Obligations.ExecuteOneRunsOneInstruction := by
  intro s i hs hfault hi
  obtain ⟨t, hrun⟩ := execIn_completes config i (s.calling 1)
  exact ⟨t, (execIn_config i _).symm.trans hrun,
    State.execute_eq_of_callEnds hs hfault rfl (.of_one hfault hi hrun)⟩

end Sys2Proof.Machine
end

section
/-! Reset and the host between calls (spec/70_reset_and_hazards.md R210 to R216), and the cycles of an instruction
against the tables (R222, R223). -/

namespace Sys2Proof.Machine

/-! ### Reset -/

/-- A state that a reset has left is idle, so the host may act on it again (R214). -/
theorem State.resetTo_idle (cfg : Config) (s : State) (vector : Word) : (s.resetTo cfg vector).Idle := by
  simp [State.Idle]

theorem State.host_resetTo (cfg : Config) {s : State} (hs : s.Idle) (vector : Word) :
    s.host cfg (.resetTo vector) = .next (s.resetTo cfg vector) :=
  State.host_of_idle cfg hs _

/-- Reset reads nothing of the state it starts from (R211, R215). -/
theorem State.resetTo_eq_resetTo (cfg : Config) (s t : State) (vector : Word) :
    t.resetTo cfg vector = s.resetTo cfg vector := by
  rw [State.resetTo_eq, State.resetTo_eq]

/-- PC after reset (R211, R212): the vector, or the word that stands there once memory is zero-filled. -/
theorem State.resetTo_pc (cfg : Config) (s : State) (vector : Word) :
    (s.resetTo cfg vector).pc = if cfg.resetPcMode = .literal then vector
      else State.reset.mem.read (vector + 1) ++ State.reset.mem.read vector := by
  unfold State.resetTo
  cases cfg.resetPcMode <;> rfl

/-- Settles O2: reset forgets all of the old state, so only its PC is to be named. -/
theorem hostResetGivesResetState : Obligations.HostResetGivesResetState := by
  intro cfg s hs
  refine ⟨fun vector => ?_, (State.host_of_idle cfg hs _).trans (State.host_resetTo cfg hs _).symm⟩
  rw [State.host_resetTo cfg hs, ← State.resetTo_pc cfg s vector, State.resetTo_eq]

/-- Settles O3: what a reset leaves is idle, and a reset of it forgets it. -/
theorem resetTwiceIsResetOnce : Obligations.ResetTwiceIsResetOnce := by
  intro cfg s t vector h
  obtain rfl : s.resetTo cfg vector = t := Host.Outcome.next.inj (State.host_next h)
  rw [State.host_resetTo cfg (State.resetTo_idle cfg s vector), State.resetTo_eq_resetTo]

/-- Settles O56: an idle core's operations, one by one, keep it. -/
theorem hostOperationsKeepInvariant : Obligations.HostOperationsKeepInvariant :=
  fun _ _ _ _ hs h => State.host_keeps_inv hs h

/-! ### The host's writes -/

theorem State.readReg8_writeReg8 (s : State) (v : Byte) (r r' : Reg8) :
    (s.writeReg8 v r).readReg8 r' = if r' = r then v else s.readReg8 r' := by
  cases r <;> cases r' <;> rfl

theorem State.readReg16_writeReg16 (s : State) (v : Word) (r r' : Reg16) :
    (s.writeReg16 v r).readReg16 r' = if r' = r then v else s.readReg16 r' := by
  cases r <;> cases r' <;> rfl

theorem State.readFlag_write (s : State) (v : Bool) (f f' : FlagName) :
    State.readFlag { s with flags := s.flags.write v f } f' = if f' = f then v else s.readFlag f' := by
  cases f <;> cases f' <;> rfl

theorem State.writeReg8_frame (s : State) (v : Byte) (r : Reg8) :
    s.writeReg8 v r = { s with a := (s.writeReg8 v r).a, x := (s.writeReg8 v r).x, y := (s.writeReg8 v r).y } := by
  cases r <;> rfl

theorem State.writeReg16_frame (s : State) (v : Word) (r : Reg16) :
    s.writeReg16 v r = { s with pc := (s.writeReg16 v r).pc, sp := (s.writeReg16 v r).sp } := by
  cases r <;> rfl

/-- Settles O4: each write of an idle core succeeds, reads back by its own law and keeps the other fields. -/
theorem hostWritesExactlyOneThing : Obligations.HostWritesExactlyOneThing := by
  intro cfg s hs
  have hhost := State.host_of_idle cfg hs
  exact ⟨fun addr v => ⟨_, hhost _, fun b => Memory.read_write s.mem addr b v, rfl⟩,
    fun r v => ⟨_, hhost _, State.readReg8_writeReg8 s v r, State.writeReg8_frame s v r⟩,
    fun r v => ⟨_, hhost _, State.readReg16_writeReg16 s v r, State.writeReg16_frame s v r⟩,
    fun f v => ⟨_, hhost _, State.readFlag_write s v f, rfl⟩⟩

/-! ### The cycle tables -/

theorem two_le_cycleCost (cfg : Config) (s : State) (i : Instr) : 2 ≤ cycleCost cfg s i := by
  cases i <;> simp only [cycleCost] <;> omega

/-- The optional cycle of the access table is there exactly where the cost table charges it. -/
@[simp] theorem pageCrossCycle_length (rule : PageCrossRule) (base : Word) (idx : Byte) :
    (pageCrossCycle rule base idx).length = pageCrossCost rule base idx := by
  unfold pageCrossCycle pageCrossCost
  split <;> rfl

/-- The access table has one entry for each cycle of the cost table (R222, R223). -/
theorem accessTable_length (cfg : Config) (s : State) (i : Instr) :
    (accessTable cfg s i).length = cycleCost cfg s i := by
  cases i with
  | ldaAbsX | ldaAbsY | ldaIndY =>
    simp only [accessTable, cycleCost, List.length_append, pageCrossCycle_length, List.length_cons, List.length_nil]
    omega
  | _ => rfl

/-- Settles O34: an instruction charges its cost, and the two tables agree instruction by instruction. -/
theorem cyclesChargedFollowCostTable : Obligations.CyclesChargedFollowCostTable := by
  intro i s
  obtain ⟨t, hrun⟩ := execIn_completes config i s
  exact ⟨⟨t, (execIn_config i s).symm.trans hrun, execIn_charges_cycleCost hrun⟩,
    fun cfg => ⟨two_le_cycleCost cfg s i, cycleCost_le_six cfg s i, accessTable_length cfg s i⟩⟩

/-! ### The bus cycles of a pass -/

/-- The cycles of a word instruction's three fetches, the opcode's with them (R45, R223). -/
theorem Bus.fetch16_opcodeFetched (s : State) :
    Bus.fetch16 ⟨s.opcodeFetched, [.fetch s.pc]⟩ = (s.opcodeFetched.fetch16.1,
      ⟨s.opcodeFetched.fetch16.2, [.fetch s.pc, .fetch (s.pc + 1), .fetch (s.pc + 2)]⟩) := by
  rw [State.opcodeFetched_fetch16]
  simp [Bus.fetch16_eq, State.opcodeFetched_eq]

/-- After its opcode's fetch a load takes the cycles of its row: the operand's fetches and what `Resolve` adds, then the
read at the resolved address (R150, R223). -/
theorem Bus.execLDA_log (cfg : Config) (s : State) (mode : AddrMode) :
    (Bus.execLDA cfg mode ⟨s.opcodeFetched, [.fetch s.pc]⟩).log =
      accessTable cfg s (s.opcodeFetched.readOperand (.lda mode)) := by
  rw [Bus.execLDA_eq]
  cases mode with
  | immediate => rfl
  | zeroPage => rfl
  | zeroPageX => rfl
  | absolute | absoluteX | absoluteY =>
    simp [State.readOperand, State.opcodeFetched_fetch16, Bus.fetch16_opcodeFetched, Bus.resolve, Bus.penalty_eq,
      Bus.loadResolved, Bus.read8_eq, accessTable, add16]
  | indirectX | indirectY =>
    simp [State.readOperand, State.opcodeFetched_eq, State.fetch8_eq, Bus.fetch8_eq, Bus.resolve, Bus.extra_eq,
      Bus.readPtr_eq, Bus.penalty_eq, Bus.loadResolved, Bus.read8_eq, accessTable, add8, add16]

/-- After its opcode's fetch JSR takes the cycles of its row: the operand's fetches, the push, the extra cycle (R170,
R223). -/
theorem Bus.execJSR_log (cfg : Config) (s : State) :
    (Bus.execJSR ⟨s.opcodeFetched, [.fetch s.pc]⟩).log = accessTable cfg s (s.opcodeFetched.readOperand .jsr) := by
  simp [Bus.execJSR, Bus.fetch16_opcodeFetched, State.opcodeFetched_fetch16, Bus.write16_eq, Bus.extra_eq,
    State.readOperand, accessTable]

/-- The loop looks the opcode up and then fetches the operand, in the cycles of the instruction they make together
(R131, R223). -/
theorem Bus.iteration_log_of_lookup (cfg : Config) (s : State) {row : OpcodeRow}
    (h : lookup (s.mem.read s.pc) = some row) :
    (Bus.iteration cfg ⟨s, []⟩).log = accessTable cfg s (s.opcodeFetched.readOperand row.operation) := by
  simp only [Bus.iteration, Bus.fetch8_eq, h]
  cases row.operation with
  | lda mode => exact Bus.execLDA_log cfg s mode
  | jsr => exact Bus.execJSR_log cfg s

theorem Bus.iteration_log_of_unmapped (cfg : Config) (s : State) (h : lookup (s.mem.read s.pc) = none) :
    (Bus.iteration cfg ⟨s, []⟩).log = [.fetch s.pc] := by
  simp [Bus.iteration, Bus.fetch8_eq, h]

/-- A pass that runs an instruction pays what the instruction costs (R222). -/
theorem Bus.iteration_call (cfg : Config) {s : State} {i : Instr} (hi : s.fetchInstr = some i) :
    (Bus.iteration cfg ⟨s, []⟩).st.call = s.call.charge (cycleCost cfg s i) := by
  apply execIn_charges_cycleCost
  rw [← State.runInstruction_of_some (execIn cfg) s i hi]
  exact State.runInstruction_execIn cfg s []

/-- Settles O48: the instruction at PC is the one the opcode's row makes of its operand, and the pass takes the cycles
of that row. -/
theorem busCyclesFollowAccessTable : Obligations.BusCyclesFollowAccessTable := by
  intro cfg s
  refine ⟨fun i hi => ⟨?_, Bus.iteration_call cfg hi⟩, fun hnone =>
    Bus.iteration_log_of_unmapped cfg s ((State.fetchInstr_eq_none_iff s).mp hnone)⟩
  cases hrow : lookup (s.mem.read s.pc) with
  | none => rw [(State.fetchInstr_eq_none_iff s).mpr hrow] at hi; cases hi
  | some row =>
    obtain rfl : s.opcodeFetched.readOperand row.operation = i :=
      Option.some.inj ((s.fetchInstr_of_lookup row hrow).symm.trans hi)
    exact Bus.iteration_log_of_lookup cfg s hrow

end Sys2Proof.Machine
end

section
/-! The requests a counter width serves, and what `execute` answers to them (R9, D6, U8). -/

namespace Sys2Proof.Machine

/-- The unbounded counter serves every request (D6). -/
theorem requestFits_of_unbounded {cfg : Config} (hwidth : cfg.cycleCounter = .unbounded) (requested : Int) :
    requestFits cfg requested = true := by
  simp [requestFits, hwidth]

/-- A 32-bit counter serves the requests of its range that no instruction can overflow (U8). -/
theorem requestFits_iff_of_signed32 {cfg : Config} (hwidth : cfg.cycleCounter = .signed32) (requested : Int) :
    requestFits cfg requested = true ↔ -(2 ^ 31) ≤ requested ∧ requested ≤ 2 ^ 31 - 6 := by
  simp only [requestFits, hwidth, Bool.and_eq_true, decide_eq_true_eq]

/-- Between calls a core without a fault begins the call of a request that fits, and no other (R131, R132). -/
theorem State.host_execute (cfg : Config) {s : State} (hs : s.Idle) (hfault : s.fault = none) (requested : Int) :
    s.host cfg (.execute requested) =
      if requestFits cfg requested then .next (s.calling requested) else .refused (.requestTooWide requested) := by
  simp [State.host_of_idle cfg hs, State.hostIdle, State.beginExecute, hfault, State.calling]

/-- Settles O6: the call begins exactly when the request fits the counter, which 2^31 - 6 bounds under `signed32`. -/
theorem narrowCounterRefusesWideRequest : Obligations.NarrowCounterRefusesWideRequest := by
  intro cfg s requested hs hfault
  rw [State.host_execute cfg hs hfault]
  refine ⟨fun hwidth hwide => ?_, fun hwidth hlow hhigh => ?_, fun hwidth => ?_⟩
  · have hunfit : ¬ requestFits cfg requested = true := fun hfits =>
      hwide.not_ge ((requestFits_iff_of_signed32 hwidth requested).mp hfits).2
    exact if_neg hunfit
  · exact if_pos ((requestFits_iff_of_signed32 hwidth requested).mpr ⟨hlow, hhigh⟩)
  · exact if_pos (requestFits_of_unbounded hwidth requested)

end Sys2Proof.Machine
end
